-- ==== Sys2Proof/Word.lean ====
section
/-! DEFINITION. The word types carried on the ports (10_state.md R12 to R14, R18; 00_scope.md R5). -/

namespace Sys2Proof

/-- A 5-bit operation code, port `op` (R12, R39). -/
abbrev OpCode := BitVec 5

/-- A 32-bit IBM word: sign, 7-bit exponent field, 24-bit mantissa (R14). Ports `a`, `b`, `r`. -/
abbrev IbmWord := BitVec 32

/-- The bit string of an IEEE-754 double (R18). Ports `d`, `q`. -/
abbrev Double64 := BitVec 64

/-- A binary exponent in two's complement, NW = 16 bits (R5). Ports `n`, `x`. -/
abbrev ExpWord := BitVec 16

/-- An integer result in two's complement, ZW = 256 bits (R5). Port `z`. -/
abbrev IntWord := BitVec 256

/-- One byte of the host's 4-byte buffer (20_memory.md R29). -/
abbrev Byte := BitVec 8

end Sys2Proof
end

