-- ==== Sys2Proof/Syntax.lean ====
section
/-! DEFINITION. The request bundle (30_encoding.md R38), the eighteen operations (R39), the instruction
a request stands for, the status names (10_state.md R20) and the abstract syntax of the host's script
lines (R44) and aliases (R45). -/

namespace Sys2Proof

/-- The one format REQ: the bundle of the eight input ports, all presented together (R12, R38). -/
structure Request where
  op : OpCode
  a : IbmWord
  b : IbmWord
  d : Double64
  n : ExpWord
  cs : BitVec 1
  ce : BitVec 7
  cm : BitVec 24
  deriving DecidableEq, Repr

/-- The operations of the map, in the order of their codes (R39). -/
inductive Op where
  | ibm2ieee | ieee2ibm | decomp | compose | isZero | isSubn | toBool | normalize | zeroSubn
  | abs | neg | add | sub | ldexp | frexp | trunc | ceil | floor
  deriving DecidableEq, Repr

/-- An instruction: an operation with the values of the ports it reads (R39, R40). One constructor for
each row of the opcode table; a port the operation does not read is no part of it. Operands are whole
port values (R42), so every operand value is legal (R41). -/
inductive Instr where
  | ibm2ieee (a : IbmWord)
  | ieee2ibm (d : Double64)
  | decomp (a : IbmWord)
  | compose (cs : BitVec 1) (ce : BitVec 7) (cm : BitVec 24)
  | isZero (a : IbmWord)
  | isSubn (a : IbmWord)
  | toBool (a : IbmWord)
  | normalize (a : IbmWord)
  | zeroSubn (a : IbmWord)
  | abs (a : IbmWord)
  | neg (a : IbmWord)
  | add (a b : IbmWord)
  | sub (a b : IbmWord)
  | ldexp (d : Double64) (n : ExpWord)
  | frexp (a : IbmWord)
  | trunc (a : IbmWord)
  | ceil (a : IbmWord)
  | floor (a : IbmWord)
  deriving DecidableEq, Repr

/-- The operation an instruction performs. -/
def Instr.op : Instr → Op
  | .ibm2ieee _ => .ibm2ieee
  | .ieee2ibm _ => .ieee2ibm
  | .decomp _ => .decomp
  | .compose _ _ _ => .compose
  | .isZero _ => .isZero
  | .isSubn _ => .isSubn
  | .toBool _ => .toBool
  | .normalize _ => .normalize
  | .zeroSubn _ => .zeroSubn
  | .abs _ => .abs
  | .neg _ => .neg
  | .add _ _ => .add
  | .sub _ _ => .sub
  | .ldexp _ _ => .ldexp
  | .frexp _ => .frexp
  | .trunc _ => .trunc
  | .ceil _ => .ceil
  | .floor _ => .floor

/-- The three error kinds, a closed enumeration (60_exceptions.md R78). -/
inductive ErrorKind where
  | invalidValue
  | overflow
  | underflow
  deriving DecidableEq, Repr

/-- The four status codes of port `st` by name (10_state.md R20). -/
inductive Status where
  | ok
  | invalidValue
  | overflow
  | underflow
  deriving DecidableEq, Repr

/-- The operand ports, without `op` (R12). -/
inductive InPort where
  | a | b | d | n | cs | ce | cm
  deriving DecidableEq, Repr

/-- The result ports, without `st` (R13). -/
inductive OutPort where
  | r | q | x | z | p | fs | fe | fm | ft
  deriving DecidableEq, Repr

/-- A host variable of a script, by number (R44: "Names are the host's variables"). -/
abbrev VarName := Nat

/-- A script operand: a name, or a literal by its kind (R44). The text a literal is spelled with is the
host's (00_scope.md R3 leaves the parsing of text out): a floating literal stands here as its double. -/
inductive Operand where
  | name (v : VarName)
  | word (w : IbmWord)
  | double (bits : Double64)
  | int (i : Int)
  deriving DecidableEq, Repr

/-- The aliases of R45. -/
inductive Alias where
  | fromBytes | toBytes | fromFloat | toFloat | decode | encode | signBit | exponent | mantissa | isNorm
  deriving DecidableEq, Repr

/-- What stands in a line's mnemonic place: an operation, or an alias (R44, R45). -/
inductive Head where
  | op (o : Op)
  | short (al : Alias)
  deriving DecidableEq, Repr

/-- A script line: destinations, mnemonic, operands, and the status the line states, if it does (R44). -/
structure Line where
  dests : List VarName
  head : Head
  operands : List Operand
  status : Option Status
  deriving DecidableEq, Repr

end Sys2Proof
end

