-- ==== Sys2Proof/Config.lean ====
section
/-! DEFINITION. The free values: what a read of an output port gives when the transaction does not
drive it (10_state.md R26; 93_implementation_defined.md U1, U2, U4). One constant for each port, with
no body, so that nothing can be proved of a value it gives: "a draw under no law". The arguments are the
request on the input ports and the transaction counter `State.draws`, so that another request and another
transaction have draws of their own. DESIGN CHOICE, unsafe (log entry 2): on nothing else does the value
depend, where R26 lets it depend on anything. -/

namespace Sys2Proof.Config

/-- Free value of port `st` while it is not driven. -/
opaque undrivenSt : Request → Nat → BitVec 2

/-- Free value of port `r` while it is not driven. -/
opaque undrivenR : Request → Nat → IbmWord

/-- Free value of port `q` while it is not driven. -/
opaque undrivenQ : Request → Nat → Double64

/-- Free value of port `x` while it is not driven. -/
opaque undrivenX : Request → Nat → ExpWord

/-- Free value of port `z` while it is not driven. -/
opaque undrivenZ : Request → Nat → IntWord

/-- Free value of port `p` while it is not driven. -/
opaque undrivenP : Request → Nat → BitVec 1

/-- Free value of port `fs` while it is not driven. -/
opaque undrivenFs : Request → Nat → BitVec 1

/-- Free value of port `fe` while it is not driven. -/
opaque undrivenFe : Request → Nat → BitVec 7

/-- Free value of port `fm` while it is not driven. -/
opaque undrivenFm : Request → Nat → BitVec 24

/-- Free value of port `ft` while it is not driven. -/
opaque undrivenFt : Request → Nat → BitVec 8

end Sys2Proof.Config
end

