-- ==== Sys2Proof/Machine/OpMap.lean ====
section
/-! DEFINITION. The operation map of 30_encoding.md: the code of each operation (R39), the ports each
reads and drives and the errors each can raise (R40), and the widths of the ports (R12, R13). -/

namespace Sys2Proof

/-- The operation code (R39). -/
def Op.code : Op → OpCode
  | .ibm2ieee => 0x00#5
  | .ieee2ibm => 0x01#5
  | .decomp => 0x02#5
  | .compose => 0x03#5
  | .isZero => 0x04#5
  | .isSubn => 0x05#5
  | .toBool => 0x06#5
  | .normalize => 0x07#5
  | .zeroSubn => 0x08#5
  | .abs => 0x09#5
  | .neg => 0x0A#5
  | .add => 0x0B#5
  | .sub => 0x0C#5
  | .ldexp => 0x0D#5
  | .frexp => 0x0E#5
  | .trunc => 0x0F#5
  | .ceil => 0x10#5
  | .floor => 0x11#5

/-- The codes with no operation, `0x12` to `0x1F` (R41). -/
def isReservedCode (c : OpCode) : Bool := decide (0x12 ≤ c.toNat)

/-- The "reads" column of R40, in its order. -/
def Op.reads : Op → List InPort
  | .ieee2ibm => [.d]
  | .compose => [.cs, .ce, .cm]
  | .add => [.a, .b]
  | .sub => [.a, .b]
  | .ldexp => [.d, .n]
  | .ibm2ieee | .decomp | .isZero | .isSubn | .toBool | .normalize | .zeroSubn | .abs | .neg
  | .frexp | .trunc | .ceil | .floor => [.a]

/-- The "drives on OK" column of R40, in its order. -/
def Op.drives : Op → List OutPort
  | .ibm2ieee => [.q]
  | .decomp => [.fs, .fe, .fm, .ft]
  | .isZero | .isSubn | .toBool => [.p]
  | .frexp => [.q, .x]
  | .trunc | .ceil | .floor => [.z]
  | .ieee2ibm | .compose | .normalize | .zeroSubn | .abs | .neg | .add | .sub | .ldexp => [.r]

/-- The "can raise" column of R40. -/
def Op.raises : Op → List ErrorKind
  | .ieee2ibm | .ldexp => [.invalidValue, .overflow, .underflow]
  | .normalize => [.underflow]
  | .add | .sub => [.overflow]
  | .ibm2ieee | .decomp | .compose | .isZero | .isSubn | .toBool | .zeroSubn | .abs | .neg
  | .frexp | .trunc | .ceil | .floor => []

/-- The width of an operand port (R12). -/
def InPort.width : InPort → Nat
  | .a => 32
  | .b => 32
  | .d => 64
  | .n => 16
  | .cs => 1
  | .ce => 7
  | .cm => 24

/-- The width of a result port (R13). -/
def OutPort.width : OutPort → Nat
  | .r => 32
  | .q => 64
  | .x => 16
  | .z => 256
  | .p => 1
  | .fs => 1
  | .fe => 7
  | .fm => 24
  | .ft => 8

end Sys2Proof
end

