-- ==== Sys2Proof/WellFormed.lean ====
section
/-! DEFINITION. What is well-formed: a request whose code is not reserved (30_encoding.md R41), an
instruction (every operand value is legal, so only the code is checked), and a script line (R44: operand
and destination counts, literal kinds, literal ranges). -/

namespace Sys2Proof

/-- A request is well-formed when its code is not reserved: every value of every other field is legal
(R41). -/
def Request.wellFormed (req : Request) : Bool := !isReservedCode req.op

/-- An instruction is well-formed when its operation's code is not reserved (R41). -/
def Instr.wellFormed (i : Instr) : Bool := !isReservedCode i.op.code

/-- An operand may stand for a port: a name always, a literal of the port's kind and range (R44). -/
def Operand.fits (p : InPort) : Operand → Bool
  | .name _ => true
  | .word _ => p == .a || p == .b
  | .double _ => p == .d
  | .int i =>
    match p with
    | .n => decide (-32768 ≤ i ∧ i ≤ 32767)
    | .cs | .ce | .cm => decide (0 ≤ i ∧ i < 2 ^ p.width)
    | .a | .b | .d => false

/-- The operation an alias expands to; none for the two that are no transaction (R45). -/
def Alias.op : Alias → Option Op
  | .fromBytes | .toBytes => none
  | .fromFloat | .encode => some .ieee2ibm
  | .toFloat | .decode => some .ibm2ieee
  | .signBit | .exponent | .mantissa => some .decomp
  | .isNorm => some .isSubn

/-- A byte operand of FROMBYTES: a name, or an integer of one byte (R45). -/
def Operand.fitsByte : Operand → Bool
  | .name _ => true
  | .int i => decide (0 ≤ i ∧ i < 256)
  | .word _ | .double _ => false

/-- Operands agree with a list of ports, one for one, in its order (R44). -/
def operandsFit : List InPort → List Operand → Bool
  | [], [] => true
  | p :: ps, o :: os => o.fits p && operandsFit ps os
  | _, _ => false

/-- A script line is well-formed: operands in the order of the "reads" column, as many destinations as
ports are driven (one for an alias that keeps one, four bytes for TOBYTES) (R44, R45). -/
def Line.wellFormed (l : Line) : Bool :=
  match l.head with
  | .op o => operandsFit o.reads l.operands && l.dests.length == o.drives.length
  | .short .fromBytes =>
    l.operands.length == 4 && l.operands.all Operand.fitsByte && l.dests.length == 1
  | .short .toBytes => operandsFit [.a] l.operands && l.dests.length == 4
  | .short al =>
    match al.op with
    | some o => operandsFit o.reads l.operands && l.dests.length == 1
    | none => false

end Sys2Proof
end

