-- ==== Sys2Proof/Decode.lean ====
section
/-! DEFINITION. Decoding a request to an instruction, total, rejecting a reserved code by name
(30_encoding.md R38, R39, R41), then the encoder: the request an instruction stands for (R44). -/

namespace Sys2Proof

/-- Why a request is not decoded. -/
inductive DecodeReject where
  /-- One of the fourteen codes `0x12` to `0x1F` (R41). -/
  | reservedCode (op : OpCode)
  deriving DecidableEq, Repr

/-- The operation of a code: all five bits are compared, mask `0x1F` (R39). -/
def Op.ofCode (c : OpCode) : Option Op :=
  match c.toNat with
  | 0x00 => some .ibm2ieee
  | 0x01 => some .ieee2ibm
  | 0x02 => some .decomp
  | 0x03 => some .compose
  | 0x04 => some .isZero
  | 0x05 => some .isSubn
  | 0x06 => some .toBool
  | 0x07 => some .normalize
  | 0x08 => some .zeroSubn
  | 0x09 => some .abs
  | 0x0A => some .neg
  | 0x0B => some .add
  | 0x0C => some .sub
  | 0x0D => some .ldexp
  | 0x0E => some .frexp
  | 0x0F => some .trunc
  | 0x10 => some .ceil
  | 0x11 => some .floor
  | _ => none

/-- An operation with the ports it reads taken from the request, the others dropped (R39, R40). -/
def Op.instr (o : Op) (req : Request) : Instr :=
  match o with
  | .ibm2ieee => .ibm2ieee req.a
  | .ieee2ibm => .ieee2ibm req.d
  | .decomp => .decomp req.a
  | .compose => .compose req.cs req.ce req.cm
  | .isZero => .isZero req.a
  | .isSubn => .isSubn req.a
  | .toBool => .toBool req.a
  | .normalize => .normalize req.a
  | .zeroSubn => .zeroSubn req.a
  | .abs => .abs req.a
  | .neg => .neg req.a
  | .add => .add req.a req.b
  | .sub => .sub req.a req.b
  | .ldexp => .ldexp req.d req.n
  | .frexp => .frexp req.a
  | .trunc => .trunc req.a
  | .ceil => .ceil req.a
  | .floor => .floor req.a

/-- The instruction a request stands for; `op` alone selects it (R38, R39). -/
def decode (req : Request) : Except DecodeReject Instr :=
  match Op.ofCode req.op with
  | some o => .ok (o.instr req)
  | none => .error (.reservedCode req.op)

/-- The request of an instruction over a background: the code on `op`, the operands on the ports the
operation reads, every other port as the background has it ("the ports it does not read are
don't-care", R44). -/
def encodeOnto (bg : Request) : Instr → Request
  | .ibm2ieee a => { bg with op := 0x00#5, a := a }
  | .ieee2ibm d => { bg with op := 0x01#5, d := d }
  | .decomp a => { bg with op := 0x02#5, a := a }
  | .compose cs ce cm => { bg with op := 0x03#5, cs := cs, ce := ce, cm := cm }
  | .isZero a => { bg with op := 0x04#5, a := a }
  | .isSubn a => { bg with op := 0x05#5, a := a }
  | .toBool a => { bg with op := 0x06#5, a := a }
  | .normalize a => { bg with op := 0x07#5, a := a }
  | .zeroSubn a => { bg with op := 0x08#5, a := a }
  | .abs a => { bg with op := 0x09#5, a := a }
  | .neg a => { bg with op := 0x0A#5, a := a }
  | .add a b => { bg with op := 0x0B#5, a := a, b := b }
  | .sub a b => { bg with op := 0x0C#5, a := a, b := b }
  | .ldexp d n => { bg with op := 0x0D#5, d := d, n := n }
  | .frexp a => { bg with op := 0x0E#5, a := a }
  | .trunc a => { bg with op := 0x0F#5, a := a }
  | .ceil a => { bg with op := 0x10#5, a := a }
  | .floor a => { bg with op := 0x11#5, a := a }

/-- The bundle with zero on every port. -/
def Request.zero : Request :=
  { op := 0, a := 0, b := 0, d := 0, n := 0, cs := 0, ce := 0, cm := 0 }

/-- The request of an instruction, zero on the ports it does not read (log entry 1). -/
def encode (i : Instr) : Request := encodeOnto Request.zero i

/-- The bundle that a word of the opcode table stands for: the table's bits are `op[4:0]` (mask `0x1F`,
so the bits that fill the byte are no part of it), and the operand ports, which the table gives no bits,
are zero. `nbits` bounds the word; bits past it are zero (log entry 1). -/
def tableRequest (nbits w : Nat) : Request :=
  { Request.zero with op := BitVec.ofNat 5 (w % 2 ^ nbits) }

/-- The instruction the decoder reads from a word numbered as the opcode table numbers it. -/
def decodeTableWord (nbits w : Nat) : Option Instr :=
  match decode (tableRequest nbits w) with
  | .ok i => some i
  | .error _ => none

end Sys2Proof
end

