-- ==== Sys2Proof/Machine/State.lean ====
section
/-! DEFINITION. The machine's state as plain data: the input bundle presented (10_state.md R12), the
output bundle (R13), and the model's own counter of transactions. The block itself holds no
architectural state (R11, R21 to R25): there is no register, pc, flag, mode or memory to hold. -/

namespace Sys2Proof.Machine

/-- The ten output ports (R13). `none` says that the transaction does not drive the port: a value is
then not given to it (R26), and a read of it is a free value (`State.readR` and the others). -/
structure OutPorts where
  /-- status, 2 bits (R20) -/
  st : Option Status
  /-- IBM word result, 32 bits -/
  r : Option IbmWord
  /-- double result, 64 bits -/
  q : Option Double64
  /-- binary exponent result, 16 bits -/
  x : Option ExpWord
  /-- integer result, 256 bits -/
  z : Option IntWord
  /-- predicate result, 1 bit -/
  p : Option (BitVec 1)
  /-- sign bit of the decomposed word -/
  fs : Option (BitVec 1)
  /-- exponent field of the decomposed word, 7 bits -/
  fe : Option (BitVec 7)
  /-- mantissa of the decomposed word, 24 bits -/
  fm : Option (BitVec 24)
  /-- true base-16 exponent, 8 bits -/
  ft : Option (BitVec 8)
  deriving DecidableEq, Repr

/-- No port driven. -/
def OutPorts.undriven : OutPorts :=
  { st := none, r := none, q := none, x := none, z := none, p := none, fs := none, fe := none,
    fm := none, ft := none }

/-- The state: the bundle on the input ports, the bundle on the output ports, and `draws`, the number
of transactions evaluated, which with the request indexes the free values of undriven ports (the model's
own field, log entry 2). -/
structure State where
  inp : Request
  out : OutPorts
  draws : Nat
  deriving DecidableEq, Repr

/-- No fault exists: "There is no behaviour in this spec that a model treats as `fault` or `stuck`"
(93_implementation_defined.md); the three error kinds are defined results (R78, R80). Closed and empty. -/
inductive Fault where
  deriving DecidableEq, Repr

/-- Why a step refuses. -/
inductive Refusal where
  /-- Raised by an arm of `exec` for an instruction not modelled yet. Safe. No arm raises it. -/
  | notModelled (mnemonic : String)
  /-- Raised by `step` for a request with a code in `0x12` to `0x1F`: the spec gives it no meaning and a
  model refuses it (R41, U3). Safe. -/
  | reservedCode (op : OpCode)
  deriving DecidableEq, Repr

/-- The machine before any transaction: no output port driven (R88: the outputs are unspecified until a
bundle is presented; log entry 2), and zero on the input ports, a DESIGN CHOICE (log entry 3): the spec
has no reset and no value to reset (R27, R88). -/
def State.reset : State :=
  { inp := Request.zero, out := OutPorts.undriven, draws := 0 }

end Sys2Proof.Machine
end

