-- ==== Sys2Proof/Machine/Operands.lean ====
section
/-! DEFINITION. Operand assembly (30_encoding.md R42): the fields of an IBM word and of a double, their
recomposition, the signed readings of R7, the digit counts of R8 and the byte order of R29. -/

namespace Sys2Proof.Machine

/-- `sign(w) = w[31]` (R8, R14). -/
def sign (w : IbmWord) : BitVec 1 := w.extractLsb' 31 1

/-- `expf(w) = w[30:24]`, the stored exponent field (R8, R14). -/
def expf (w : IbmWord) : BitVec 7 := w.extractLsb' 24 7

/-- `mant(w) = w[23:0]` (R8, R14). -/
def mant (w : IbmWord) : BitVec 24 := w.extractLsb' 0 24

/-- `pack(s, e, m) = {s, e[6:0], m[23:0]}` (R8). -/
def pack (s : BitVec 1) (e : BitVec 7) (m : BitVec 24) : IbmWord := s ++ e ++ m

/-- `pack` of integers that the calling rule bounds: `0 ≤ e ≤ 127`, `0 ≤ m < 2^24` (R8). -/
def packNat (s : BitVec 1) (e m : Nat) : IbmWord := pack s (BitVec.ofNat 7 e) (BitVec.ofNat 24 m)

/-- The leading hex digit of a mantissa, `m[23:20]` (R17). -/
def topDigit (m : BitVec 24) : BitVec 4 := m.extractLsb' 20 4

/-- `D[63]` (R18). -/
def dblSign (d : Double64) : BitVec 1 := d.extractLsb' 63 1

/-- `D[62:52]`, the biased exponent (R18). -/
def dblExp (d : Double64) : BitVec 11 := d.extractLsb' 52 11

/-- `D[51:0]`, the fraction (R18). -/
def dblFrac (d : Double64) : BitVec 52 := d.extractLsb' 0 52

/-- The double `{s, E, F}` (R18). -/
def packDouble (s : BitVec 1) (e : BitVec 11) (f : BitVec 52) : Double64 := s ++ e ++ f

/-- The index of the most significant 1 bit of a non-zero integer (R8). -/
def msb (m : Nat) : Nat := m.log2

/-- The number of leading zero hex digits of `0 < m < 2^24` (R8). -/
def lzd (m : Nat) : Nat := 5 - msb m / 4

/-- `int_16(v)`: the signed reading of the exponent operand (R7, R42). -/
def int16 (v : ExpWord) : Int := v.toInt

/-- `tc_8(i)` (R7). -/
def tc8 (i : Int) : BitVec 8 := BitVec.ofInt 8 i

/-- `tc_16(i)` (R7). -/
def tc16 (i : Int) : ExpWord := BitVec.ofInt 16 i

/-- `tc_256(i)` (R7). -/
def tc256 (i : Int) : IntWord := BitVec.ofInt 256 i

/-- The integer of a sign bit and a magnitude (R64, R73: `s ? -m : m`). -/
def signedMag (s : BitVec 1) (m : Nat) : Int := if s = 1#1 then -(m : Int) else (m : Int)

/-- The word of the 4-byte buffer, `B0` first and most significant (20_memory.md R29; R45 FROMBYTES). -/
def fromBytes (b0 b1 b2 b3 : Byte) : IbmWord := b0 ++ b1 ++ b2 ++ b3

/-- The 4-byte buffer of a word, in buffer order (R29; R45 TOBYTES). -/
def toBytes (w : IbmWord) : List Byte :=
  [w.extractLsb' 24 8, w.extractLsb' 16 8, w.extractLsb' 8 8, w.extractLsb' 0 8]

end Sys2Proof.Machine
end

