-- ==== Sys2Proof/Machine/Constants.lean ====
section
/-! DEFINITION. The named constants, wired values and no registers (10_state.md R19, R24, R27). -/

namespace Sys2Proof.Machine

/-- `EXPONENT_BIAS` (R14, R19). -/
def exponentBias : Nat := 64

/-- The canonical zero, the all-zero word (R16, D11). -/
def canonicalZero : IbmWord := 0x00000000#32

/-- `MAX_IBM_FLOAT`: field 127, mantissa all ones (R19). -/
def maxIbmFloat : IbmWord := 0x7FFFFFFF#32

/-- `MIN_IBM_FLOAT = -MAX_IBM_FLOAT` (R19). -/
def minIbmFloat : IbmWord := 0xFFFFFFFF#32

/-- `SMALLEST_POSITIVE_NORMAL_IBM_FLOAT` (R19). -/
def smallestPositiveNormalIbmFloat : IbmWord := 0x00100000#32

/-- `LARGEST_NEGATIVE_NORMAL_IBM_FLOAT` (R19). -/
def largestNegativeNormalIbmFloat : IbmWord := 0x80100000#32

/-- The smallest subnormal (R19). -/
def smallestSubnormal : IbmWord := 0x00000001#32

/-- `EPSILON_IBM_FLOAT` as described, a subnormal pattern (R19, D17). -/
def epsilonIbmFloat : IbmWord := 0x40000001#32

/-- The normalized word of `EPSILON_IBM_FLOAT`'s value (R19). -/
def epsilonNormalized : IbmWord := 0x3B100000#32

/-- `MAX_EXACT_INTEGER_IBM_FLOAT` (R19, D17). -/
def maxExactIntegerIbmFloat : IbmWord := 0x47100000#32

/-- `MIN_EXACT_INTEGER_IBM_FLOAT` (R19, D17). -/
def minExactIntegerIbmFloat : IbmWord := 0xC7100000#32

end Sys2Proof.Machine
end

