-- ==== Sys2Proof/Machine/Flags.lean ====
section
/-! DEFINITION. No flag is stored (10_state.md R23). What the spec computes in a flag's place: the status
code of a transaction (R20, R78) and the three predicates of a word (R16, R17). -/

namespace Sys2Proof

/-- The 2-bit code on port `st` (R20). -/
def Status.code : Status → BitVec 2
  | .ok => 0#2
  | .invalidValue => 1#2
  | .overflow => 2#2
  | .underflow => 3#2

/-- The status that reports an error kind (R78). -/
def ErrorKind.status : ErrorKind → Status
  | .invalidValue => .invalidValue
  | .overflow => .overflow
  | .underflow => .underflow

end Sys2Proof

namespace Sys2Proof.Machine

/-- `is_zero(w)`: the mantissa is 0 (R16, R17). -/
def isZeroWord (w : IbmWord) : Bool := mant w == 0#24

/-- `is_subnormal(w)`: the mantissa is not 0 and its top hex digit is (R17). -/
def isSubnormalWord (w : IbmWord) : Bool := mant w != 0#24 && topDigit (mant w) == 0#4

/-- `is_normalized(w)`: not subnormal, zero included (R17). -/
def isNormalizedWord (w : IbmWord) : Bool := !isSubnormalWord w

/-- A word is canonical when it is `0x00000000` or non-zero and normalized (44_addsub.md R69). -/
def isCanonicalWord (w : IbmWord) : Bool :=
  w == 0x00000000#32 || (!isZeroWord w && isNormalizedWord w)

end Sys2Proof.Machine
end

