-- ==== Sys2Proof/Machine/Datapaths.lean ====
section
/-! DEFINITION. The datapaths that operations share: ENC (40_codec.md R48), ADDCORE (44_addsub.md R64),
INTPARTS (46_integer.md R73), and the left-aligned fraction of R46 and R71. -/

namespace Sys2Proof.Machine

/-- The bits of a non-zero 24-bit `m` below its leading 1, left-aligned in 52 bits:
`F = (m << (52 - p))[51:0]` (R46, R71). -/
def alignedFraction (m : Nat) : BitVec 52 := BitVec.ofNat 52 (m <<< (52 - msb m))

/-- ENC encodes the non-zero real `(-1)^s * sig * 2^(x-52)`, `2^52 ≤ sig < 2^53`: truncation to 24
mantissa bits, normalized where the field allows, a subnormal word at field 0 below `2^-260`, Overflow
above `MAX_IBM_FLOAT` before truncation, Underflow below `2^-280` (R48, R50). -/
def enc (s : BitVec 1) (sig : Nat) (x : Int) : Except ErrorKind IbmWord :=
  if 252 ≤ x then .error .overflow
  else if x = 251 ∧ (2 ^ 24 - 1) * 2 ^ 29 < sig then .error .overflow
  else if x ≤ -281 then .error .underflow
  else if -260 ≤ x then
    .ok (packNat s (x / 4 + 1 + 64).toNat (sig >>> (32 - x % 4).toNat))
  else
    .ok (packNat s 0 (sig >>> (-228 - x).toNat))

/-- ADDCORE step 4: re-encode the magnitude `mag` at field `e` with truncation (R64). -/
def reencode (s : BitVec 1) (e mag : Nat) : Except ErrorKind IbmWord :=
  if 2 ^ 24 ≤ mag then
    if 127 < e + 1 then .error .overflow else .ok (packNat s (e + 1) (mag >>> 4))
  else
    .ok (packNat s (e - min (lzd mag) e) (mag <<< (4 * min (lzd mag) e)))

/-- ADDCORE: align to the larger stored field by whole hex digits with no guard digit, add as signed
integers, canonical zero for a zero sum, re-encode (R64, D12, D13). -/
def addCore (sa : BitVec 1) (ea ma : Nat) (sb : BitVec 1) (eb mb : Nat) : Except ErrorKind IbmWord :=
  let e := max ea eb
  let sum := signedMag sa (ma >>> (4 * (e - ea))) + signedMag sb (mb >>> (4 * (e - eb)))
  if sum = 0 then .ok canonicalZero
  else reencode (BitVec.ofBool (decide (sum < 0))) e sum.natAbs

/-- What INTPARTS returns: the sign, the integer part of the magnitude, whether a non-zero fractional
part was dropped (R73). -/
structure IntParts where
  sign : BitVec 1
  mag : Nat
  rem : Bool
  deriving DecidableEq, Repr

/-- INTPARTS (R73), with `sh = 4*e - 280`. -/
def intParts (a : IbmWord) : IntParts :=
  let m := (mant a).toNat
  let sh : Int := 4 * (expf a).toNat - 280
  if 0 ≤ sh then { sign := sign a, mag := m <<< sh.toNat, rem := false }
  else if 24 ≤ -sh then { sign := sign a, mag := 0, rem := decide (m ≠ 0) }
  else { sign := sign a, mag := m >>> (-sh).toNat, rem := decide (m % 2 ^ (-sh).toNat ≠ 0) }

end Sys2Proof.Machine
end

