-- ==== Sys2Proof/Machine/Ops.lean ====
section
/-! DEFINITION. The named operations on the ports: presenting a bundle, reading a port, completing a
transaction, raising an error, and the two together. -/

namespace Sys2Proof.Machine

/-- The host presents a bundle (10_state.md R11, R12). DESIGN CHOICE, unsafe (log entry 8): until the next
step evaluates it, the output ports and the draw counter keep what the transaction before left. The spec's
outputs are a function of the inputs from the moment these are valid (R27, 92_eei_decisions.md D20), so it
has no such moment (U4), and no output is to be read there. -/
def State.present (s : State) (req : Request) : State := { s with inp := req }

/-- A transaction completes: `st <- OK` and the ports of `drive`; every other result port is not driven
(R26, 30_encoding.md R40). The inputs are the host's and stay. -/
def State.complete (s : State) (drive : OutPorts) : State :=
  { s with out := { drive with st := some .ok }, draws := s.draws + 1 }

/-- TAKING AN ERROR, the whole of it (60_exceptions.md R80, R83): the kind's code on `st` and no result
port driven (R26). Nothing is saved, no mode changes, nothing is entered, nothing is clamped; there is
therefore no return operation either (R84): the next transaction is evaluated as any other. -/
def State.raise (s : State) (k : ErrorKind) : State :=
  { s with out := { OutPorts.undriven with st := some k.status }, draws := s.draws + 1 }

/-- "An operation either completes, driving its result ports and `out.st <- OK`, or raises exactly one
kind" (00_scope.md R7): the error union of a datapath, put on the ports. -/
def State.conclude (s : State) (drive : α → OutPorts) : Except ErrorKind α → State
  | .ok v => s.complete (drive v)
  | .error k => s.raise k

/-- Drive `r` alone. -/
def driveR (w : IbmWord) : OutPorts := { OutPorts.undriven with r := some w }

/-- Drive `q` alone. -/
def driveQ (d : Double64) : OutPorts := { OutPorts.undriven with q := some d }

/-- Drive `p` alone, 1 = true (R13). -/
def driveP (b : Bool) : OutPorts := { OutPorts.undriven with p := some (BitVec.ofBool b) }

/-- Drive `z` alone. -/
def driveZ (v : IntWord) : OutPorts := { OutPorts.undriven with z := some v }

/-- Drive `q` and `x` (FREXP). -/
def driveQX (d : Double64) (x : ExpWord) : OutPorts :=
  { OutPorts.undriven with q := some d, x := some x }

/-- Drive `fs`, `fe`, `fm`, `ft` (DECOMP). -/
def driveFields (fs : BitVec 1) (fe : BitVec 7) (fm : BitVec 24) (ft : BitVec 8) : OutPorts :=
  { OutPorts.undriven with fs := some fs, fe := some fe, fm := some fm, ft := some ft }

/-- Reading port `st`: its code, or a free value while it is not driven (R20, R26, U4). R26 leaves open what
an undriven value may depend on: DESIGN CHOICE, unsafe (log entry 2), in this read and in the nine below, on
the port, the request on the input ports and the number of transactions evaluated, and on nothing else. -/
def State.readSt (s : State) : BitVec 2 :=
  match s.out.st with
  | some v => v.code
  | none => Config.undrivenSt s.inp s.draws

/-- Reading port `r`: a free value while it is not driven (R26; log entry 2). -/
def State.readR (s : State) : IbmWord := s.out.r.getD (Config.undrivenR s.inp s.draws)

/-- Reading port `q`: a free value while it is not driven (R26; log entry 2). -/
def State.readQ (s : State) : Double64 := s.out.q.getD (Config.undrivenQ s.inp s.draws)

/-- Reading port `x`: a free value while it is not driven (R26; log entry 2). -/
def State.readX (s : State) : ExpWord := s.out.x.getD (Config.undrivenX s.inp s.draws)

/-- Reading port `z`: a free value while it is not driven (R26; log entry 2). -/
def State.readZ (s : State) : IntWord := s.out.z.getD (Config.undrivenZ s.inp s.draws)

/-- Reading port `p`: a free value while it is not driven (R26; log entry 2). -/
def State.readP (s : State) : BitVec 1 := s.out.p.getD (Config.undrivenP s.inp s.draws)

/-- Reading port `fs`: a free value while it is not driven (R26; log entry 2). -/
def State.readFs (s : State) : BitVec 1 := s.out.fs.getD (Config.undrivenFs s.inp s.draws)

/-- Reading port `fe`: a free value while it is not driven (R26; log entry 2). -/
def State.readFe (s : State) : BitVec 7 := s.out.fe.getD (Config.undrivenFe s.inp s.draws)

/-- Reading port `fm`: a free value while it is not driven (R26; log entry 2). -/
def State.readFm (s : State) : BitVec 24 := s.out.fm.getD (Config.undrivenFm s.inp s.draws)

/-- Reading port `ft`: a free value while it is not driven (R26; log entry 2). -/
def State.readFt (s : State) : BitVec 8 := s.out.ft.getD (Config.undrivenFt s.inp s.draws)

end Sys2Proof.Machine
end

