-- ==== Sys2Proof/Machine/AddSub.lean ====
section
/-! DEFINITION. Addition and subtraction on the encoded form: ADD and SUB (44_addsub.md R65 to R67). -/

namespace Sys2Proof.Machine

/-- The sum: ADDCORE of the operands' fields (R65). -/
def addWords (a b : IbmWord) : Except ErrorKind IbmWord :=
  addCore (sign a) (expf a).toNat (mant a).toNat (sign b) (expf b).toNat (mant b).toNat

/-- The difference: ADDCORE with the second operand's sign inverted (R66). -/
def subWords (a b : IbmWord) : Except ErrorKind IbmWord :=
  addCore (sign a) (expf a).toNat (mant a).toNat (~~~sign b) (expf b).toNat (mant b).toNat

/-- ADD (R65). -/
def execAdd (a b : IbmWord) (s : State) : Host.Outcome State Fault Refusal :=
  .next (s.conclude driveR (addWords a b))

/-- SUB (R66). -/
def execSub (a b : IbmWord) (s : State) : Host.Outcome State Fault Refusal :=
  .next (s.conclude driveR (subWords a b))

end Sys2Proof.Machine
end

