-- ==== Sys2Proof/Machine/Codec.lean ====
section
/-! DEFINITION. The byte codec: IBM2IEEE and IEEE2IBM (40_codec.md R46 to R50). -/

namespace Sys2Proof.Machine

/-- IBM2IEEE: exact and total; the sign bit is copied for a zero word too (R46, D9). -/
def ibm2ieee (a : IbmWord) : Double64 :=
  let m := (mant a).toNat
  if m = 0 then packDouble (sign a) 0#11 0#52
  else packDouble (sign a) (BitVec.ofNat 11 (4 * (expf a).toNat + msb m + 743)) (alignedFraction m)

/-- IEEE2IBM: InvalidValue for a NaN or an infinity, the canonical zero for a zero of either sign,
Underflow for a double with biased exponent 0, else ENC (R49, D8). -/
def ieee2ibm (d : Double64) : Except ErrorKind IbmWord :=
  let e := (dblExp d).toNat
  let f := (dblFrac d).toNat
  if e = 2047 then .error .invalidValue
  else if e = 0 ∧ f = 0 then .ok canonicalZero
  else if e = 0 then .error .underflow
  else enc (dblSign d) (2 ^ 52 + f) ((e : Int) - 1023)

/-- IBM2IEEE (R46). -/
def execIbm2ieee (a : IbmWord) (s : State) : Host.Outcome State Fault Refusal :=
  .next (s.complete (driveQ (ibm2ieee a)))

/-- IEEE2IBM (R49). -/
def execIeee2ibm (d : Double64) (s : State) : Host.Outcome State Fault Refusal :=
  .next (s.conclude driveR (ieee2ibm d))

end Sys2Proof.Machine
end

