-- ==== Sys2Proof/Machine/Decompose.lean ====
section
/-! DEFINITION. The mantissa/exponent decomposer and the predicates: DECOMP, COMPOSE, ISZERO, ISSUBN,
TOBOOL (41_decompose.md R52 to R56). -/

namespace Sys2Proof.Machine

/-- The true base-16 exponent, field minus 64 (R14, R52). -/
def trueExponent (a : IbmWord) : Int := ((expf a).toNat : Int) - exponentBias

/-- DECOMP (R52). -/
def execDecomp (a : IbmWord) (s : State) : Host.Outcome State Fault Refusal :=
  .next (s.complete (driveFields (sign a) (expf a) (mant a) (tc8 (trueExponent a))))

/-- COMPOSE (R53). -/
def execCompose (cs : BitVec 1) (ce : BitVec 7) (cm : BitVec 24) (s : State) :
    Host.Outcome State Fault Refusal :=
  .next (s.complete (driveR (pack cs ce cm)))

/-- ISZERO (R54). -/
def execIsZero (a : IbmWord) (s : State) : Host.Outcome State Fault Refusal :=
  .next (s.complete (driveP (isZeroWord a)))

/-- ISSUBN (R55). -/
def execIsSubn (a : IbmWord) (s : State) : Host.Outcome State Fault Refusal :=
  .next (s.complete (driveP (isSubnormalWord a)))

/-- TOBOOL: not zero (R56). -/
def execToBool (a : IbmWord) (s : State) : Host.Outcome State Fault Refusal :=
  .next (s.complete (driveP (!isZeroWord a)))

end Sys2Proof.Machine
end

