-- ==== Sys2Proof/Machine/Integer.lean ====
section
/-! DEFINITION. Conversion to an integer: TRUNC, CEIL and FLOOR (46_integer.md R73 to R76). -/

namespace Sys2Proof.Machine

/-- TRUNC: the magnitude's integer part with the sign (R74). -/
def truncInt (a : IbmWord) : Int := signedMag (intParts a).sign (intParts a).mag

/-- CEIL: one up for a positive word with a fraction (R75). -/
def ceilInt (a : IbmWord) : Int :=
  let ip := intParts a
  if ip.sign = 0#1 then (ip.mag : Int) + (if ip.rem then 1 else 0) else -(ip.mag : Int)

/-- FLOOR: one down for a negative word with a fraction (R76). -/
def floorInt (a : IbmWord) : Int :=
  let ip := intParts a
  if ip.sign = 0#1 then (ip.mag : Int) else -(ip.mag : Int) - (if ip.rem then 1 else 0)

/-- TRUNC (R74). -/
def execTrunc (a : IbmWord) (s : State) : Host.Outcome State Fault Refusal :=
  .next (s.complete (driveZ (tc256 (truncInt a))))

/-- CEIL (R75). -/
def execCeil (a : IbmWord) (s : State) : Host.Outcome State Fault Refusal :=
  .next (s.complete (driveZ (tc256 (ceilInt a))))

/-- FLOOR (R76). -/
def execFloor (a : IbmWord) (s : State) : Host.Outcome State Fault Refusal :=
  .next (s.complete (driveZ (tc256 (floorInt a))))

end Sys2Proof.Machine
end

