-- ==== Sys2Proof/Machine/LdexpFrexp.lean ====
section
/-! DEFINITION. Fraction and binary exponent: LDEXP and FREXP (45_ldexp_frexp.md R70, R71). -/

namespace Sys2Proof.Machine

/-- LDEXP: ENC of the exact product `d * 2^n`, which is never formed as a double; a subnormal double is
taken at its exact value (R70, D14). -/
def ldexpWord (d : Double64) (n : ExpWord) : Except ErrorKind IbmWord :=
  let e := (dblExp d).toNat
  let f := (dblFrac d).toNat
  if e = 2047 then .error .invalidValue
  else if e = 0 ∧ f = 0 then .ok canonicalZero
  else if e = 0 then
    enc (dblSign d) (f <<< (52 - msb f)) ((msb f : Int) - 1074 + int16 n)
  else
    enc (dblSign d) (2 ^ 52 + f) ((e : Int) - 1023 + int16 n)

/-- The fraction FREXP gives: biased exponent 1022, so magnitude in `[0.5, 1)`; a zero of the word's sign
for a zero word (R71, D15). -/
def frexpFraction (a : IbmWord) : Double64 :=
  let m := (mant a).toNat
  if m = 0 then packDouble (sign a) 0#11 0#52
  else packDouble (sign a) 1022#11 (alignedFraction m)

/-- The binary exponent FREXP gives: `4e + p - 279`, and 0 for a zero word (R71). -/
def frexpExponent (a : IbmWord) : Int :=
  let m := (mant a).toNat
  if m = 0 then 0 else 4 * ((expf a).toNat : Int) + (msb m : Int) - 279

/-- LDEXP (R70). -/
def execLdexp (d : Double64) (n : ExpWord) (s : State) : Host.Outcome State Fault Refusal :=
  .next (s.conclude driveR (ldexpWord d n))

/-- FREXP (R71). -/
def execFrexp (a : IbmWord) (s : State) : Host.Outcome State Fault Refusal :=
  .next (s.complete (driveQX (frexpFraction a) (tc16 (frexpExponent a))))

end Sys2Proof.Machine
end

