-- ==== Sys2Proof/Machine/Normalize.lean ====
section
/-! DEFINITION. The normalizer: NORMALIZE and ZEROSUBN (42_normalize.md R58, R59). -/

namespace Sys2Proof.Machine

/-- The loop of R58: one hex digit left and the field down by one at each turn, until the top digit is
not zero; Underflow when the field would go below 0. `turns` bounds it; 5 suffice (R58, R91). -/
def normalizeLoop (s : BitVec 1) : (turns e : Nat) → (m : BitVec 24) → Except ErrorKind IbmWord
  | 0, e, m => .ok (packNat s e m.toNat)
  | turns + 1, e, m =>
    if topDigit m ≠ 0#4 then .ok (packNat s e m.toNat)
    else if e = 0 then .error .underflow
    else normalizeLoop s turns (e - 1) (m <<< 4)

/-- NORMALIZE: the same 32 bits for a zero or normalized word, else the loop (R58, D10). -/
def normalizeWord (a : IbmWord) : Except ErrorKind IbmWord :=
  if isSubnormalWord a then normalizeLoop (sign a) 5 (expf a).toNat (mant a) else .ok a

/-- ZEROSUBN: the canonical zero for a subnormal word, else the word (R59, D11). -/
def zeroSubnormal (a : IbmWord) : IbmWord := if isSubnormalWord a then canonicalZero else a

/-- NORMALIZE (R58). -/
def execNormalize (a : IbmWord) (s : State) : Host.Outcome State Fault Refusal :=
  .next (s.conclude driveR (normalizeWord a))

/-- ZEROSUBN (R59). -/
def execZeroSubn (a : IbmWord) (s : State) : Host.Outcome State Fault Refusal :=
  .next (s.complete (driveR (zeroSubnormal a)))

end Sys2Proof.Machine
end

