-- ==== Sys2Proof/Machine/Sign.lean ====
section
/-! DEFINITION. The sign operations ABS and NEG (43_sign.md R61, R62). -/

namespace Sys2Proof.Machine

/-- ABS: bit 31 cleared (R61). -/
def absWord (a : IbmWord) : IbmWord := pack 0#1 (expf a) (mant a)

/-- NEG: bit 31 inverted (R62). -/
def negWord (a : IbmWord) : IbmWord := pack (~~~sign a) (expf a) (mant a)

/-- ABS (R61). -/
def execAbs (a : IbmWord) (s : State) : Host.Outcome State Fault Refusal :=
  .next (s.complete (driveR (absWord a)))

/-- NEG (R62). -/
def execNeg (a : IbmWord) (s : State) : Host.Outcome State Fault Refusal :=
  .next (s.complete (driveR (negWord a)))

end Sys2Proof.Machine
end

