-- ==== Sys2Proof/Machine/Dispatch.lean ====
section
/-! DEFINITION. One arm per instruction, each one call of its meaning (30_encoding.md R39). -/

namespace Sys2Proof.Machine

def exec (i : Instr) (s : State) : Host.Outcome State Fault Refusal :=
  match i with
  | .ibm2ieee a => Sys2Proof.Machine.execIbm2ieee a s
  | .ieee2ibm d => Sys2Proof.Machine.execIeee2ibm d s
  | .decomp a => Sys2Proof.Machine.execDecomp a s
  | .compose cs ce cm => Sys2Proof.Machine.execCompose cs ce cm s
  | .isZero a => Sys2Proof.Machine.execIsZero a s
  | .isSubn a => Sys2Proof.Machine.execIsSubn a s
  | .toBool a => Sys2Proof.Machine.execToBool a s
  | .normalize a => Sys2Proof.Machine.execNormalize a s
  | .zeroSubn a => Sys2Proof.Machine.execZeroSubn a s
  | .abs a => Sys2Proof.Machine.execAbs a s
  | .neg a => Sys2Proof.Machine.execNeg a s
  | .add a b => Sys2Proof.Machine.execAdd a b s
  | .sub a b => Sys2Proof.Machine.execSub a b s
  | .ldexp d n => Sys2Proof.Machine.execLdexp d n s
  | .frexp a => Sys2Proof.Machine.execFrexp a s
  | .trunc a => Sys2Proof.Machine.execTrunc a s
  | .ceil a => Sys2Proof.Machine.execCeil a s
  | .floor a => Sys2Proof.Machine.execFloor a s

end Sys2Proof.Machine
end

