-- ==== Sys2Proof/Machine/Step.lean ====
section
/-! DEFINITION. One step is one transaction (10_state.md R11): the request on the input ports is decoded
and its operation evaluated onto the output ports. There is no fetch (R22, R36). -/

namespace Sys2Proof.Machine

/-- A request the decoder rejects is refused under the rejection's name (30_encoding.md R41). -/
def refuse : DecodeReject → Refusal
  | .reservedCode c => .reservedCode c

/-- Evaluate the transaction on the input ports (R11, R39). -/
def step (s : State) : Host.Outcome State Fault Refusal :=
  match decode s.inp with
  | .ok i => exec i s
  | .error e => .refused (refuse e)

/-- The word of the opcode table stands on the input ports, its operand ports zero, so that the next step
evaluates it: the host presents the bundle (log entry 5). -/
def State.withFetchWord (s : State) (nbits w : Nat) : State := s.present (tableRequest nbits w)

end Sys2Proof.Machine
end

