-- ==== Sys2Proof/Machine/Script.lean ====
section
/-! DEFINITION. The host's side: runs of transactions in the host's order (10_state.md R22, 20_memory.md
R34), script lines with the host's names (30_encoding.md R44) and the aliases (R45). The names are no
state of the block (R21). -/

namespace Sys2Proof.Machine

/-- One transaction: the host presents a bundle and the block evaluates it (R11). -/
def State.transact (s : State) (req : Request) : Host.Outcome State Fault Refusal := step (s.present req)

/-- Transactions in the host's order, stopping at the first refused request (R22, R34). -/
def State.transactAll (s : State) : List Request → Host.Outcome State Fault Refusal
  | [] => .next s
  | req :: rest =>
    match s.transact req with
    | .next t => t.transactAll rest
    | .fault f => .fault f
    | .refused r => .refused r

/-- A value a name is bound to: the bits read from a driven port, as wide as the port (R44). -/
structure PortValue where
  width : Nat
  bits : BitVec width
  deriving DecidableEq, Repr

/-- The host's bindings, the latest first. -/
abbrev Bindings := List (VarName × PortValue)

/-- An error of the script, not of the hardware (R44; log entry 6). -/
inductive ScriptError where
  /-- A line uses a name that no line has bound. -/
  | unbound (v : VarName)
  /-- As many operands as the operation has not; or as many destinations, where the line binds any
  (log entry 6). -/
  | wrongCount
  /-- A literal of another kind, or a name of another width, than the port. -/
  | wrongKind
  /-- An integer literal outside the port's range. -/
  | outOfRange
  /-- The line states a status that the transaction did not give. -/
  | wrongStatus (got : Option Status)
  /-- The request was refused. -/
  | stopped
  deriving DecidableEq, Repr

/-- The host between two lines: its bindings and the block. -/
structure HostState where
  env : Bindings
  machine : State
  deriving DecidableEq, Repr

/-- The latest binding of a name. -/
def lookupName (v : VarName) : Bindings → Option PortValue
  | [] => none
  | (u, x) :: rest => if u = v then some x else lookupName v rest

/-- An integer literal for a port: `-32768..32767` on `n`, the field's range on `cs`, `ce`, `cm` (R44). -/
def intLiteral (p : InPort) (i : Int) : Except ScriptError Nat :=
  match p with
  | .n => if -32768 ≤ i ∧ i ≤ 32767 then .ok (tc16 i).toNat else .error .outOfRange
  | .cs | .ce | .cm => if 0 ≤ i ∧ i < 2 ^ p.width then .ok i.toNat else .error .outOfRange
  | .a | .b | .d => .error .wrongKind

/-- The bits of a name for something `width` bits wide. -/
def nameBits (env : Bindings) (width : Nat) (v : VarName) : Except ScriptError Nat :=
  match lookupName v env with
  | none => .error (.unbound v)
  | some x => if x.width = width then .ok x.bits.toNat else .error .wrongKind

/-- The bits an operand puts on a port (R44). -/
def operandBits (env : Bindings) (p : InPort) : Operand → Except ScriptError Nat
  | .name v => nameBits env p.width v
  | .word w => if p = .a ∨ p = .b then .ok w.toNat else .error .wrongKind
  | .double d => if p = .d then .ok d.toNat else .error .wrongKind
  | .int i => intLiteral p i

end Sys2Proof.Machine

namespace Sys2Proof

/-- Put bits on one operand port. -/
def Request.set (req : Request) (p : InPort) (v : Nat) : Request :=
  match p with
  | .a => { req with a := BitVec.ofNat 32 v }
  | .b => { req with b := BitVec.ofNat 32 v }
  | .d => { req with d := BitVec.ofNat 64 v }
  | .n => { req with n := BitVec.ofNat 16 v }
  | .cs => { req with cs := BitVec.ofNat 1 v }
  | .ce => { req with ce := BitVec.ofNat 7 v }
  | .cm => { req with cm := BitVec.ofNat 24 v }

end Sys2Proof

namespace Sys2Proof.Machine

/-- The operands of a line on the ports the operation reads, in that order (R40, R44). -/
def assemble (env : Bindings) : List InPort → List Operand → Request → Except ScriptError Request
  | [], [], req => .ok req
  | p :: ps, o :: os, req =>
    match operandBits env p o with
    | .ok v => assemble env ps os (req.set p v)
    | .error e => .error e
  | _, _, _ => .error .wrongCount

/-- What the host reads on a result port, if the port is driven. -/
def OutPorts.value (o : OutPorts) : OutPort → Option PortValue
  | .r => o.r.map fun v => ⟨32, v⟩
  | .q => o.q.map fun v => ⟨64, v⟩
  | .x => o.x.map fun v => ⟨16, v⟩
  | .z => o.z.map fun v => ⟨256, v⟩
  | .p => o.p.map fun v => ⟨1, v⟩
  | .fs => o.fs.map fun v => ⟨1, v⟩
  | .fe => o.fe.map fun v => ⟨7, v⟩
  | .fm => o.fm.map fun v => ⟨24, v⟩
  | .ft => o.ft.map fun v => ⟨8, v⟩

/-- Bind destinations to values, one for one, in their order. R44 is silent on one name standing twice among
the destinations of a line: DESIGN CHOICE (log entry 6), both are bound and the later one is the one that
is looked up. -/
def bindAll : List VarName → List PortValue → Bindings → Except ScriptError Bindings
  | [], [], env => .ok env
  | v :: vs, x :: xs, env => bindAll vs xs ((v, x) :: env)
  | _, _, _ => .error .wrongCount

/-- What an alias keeps of the driven values: one field of DECOMP, ISSUBN's bit inverted, or all (R45). -/
def aliasKeeps : Alias → List PortValue → List PortValue
  | .signBit, vs => vs.take 1
  | .exponent, vs => (vs.drop 1).take 1
  | .mantissa, vs => (vs.drop 2).take 1
  | .isNorm, vs => vs.map fun v => { v with bits := ~~~v.bits }
  | .fromBytes, vs | .toBytes, vs | .fromFloat, vs | .toFloat, vs | .decode, vs | .encode, vs => vs

/-- A status a line states is the one given (R44). -/
def statusAgrees (want got : Option Status) : Bool := want == none || want == got

/-- One transaction of a script: the line's operands on the ports the operation reads (the others as they
are), one step, and on OK the destinations bound to the driven values that are kept; a line whose
operation raises binds nothing (R44). R44 is silent on a wrong number of destinations: DESIGN CHOICE (log
entry 6), it is a script error where the line binds them, and a line whose operation raises binds none, so
its destinations are not counted. -/
def runOperation (h : HostState) (l : Line) (o : Op) (keep : List PortValue → List PortValue) :
    Except ScriptError HostState :=
  match assemble h.env o.reads l.operands { h.machine.inp with op := o.code } with
  | .error e => .error e
  | .ok req =>
    match h.machine.transact req with
    | .next t =>
      if statusAgrees l.status t.out.st then
        if t.out.st = some .ok then
          (bindAll l.dests (keep (o.drives.filterMap t.out.value)) h.env).map fun env => ⟨env, t⟩
        else .ok ⟨h.env, t⟩
      else .error (.wrongStatus t.out.st)
    | .fault _ => .error .stopped
    | .refused _ => .error .stopped

/-- The byte an operand of FROMBYTES stands for (R45). -/
def byteBits (env : Bindings) : Operand → Except ScriptError Nat
  | .name v => nameBits env 8 v
  | .int i => if 0 ≤ i ∧ i < 256 then .ok i.toNat else .error .outOfRange
  | .word _ | .double _ => .error .wrongKind

/-- FROMBYTES: no transaction, the word of four bytes (R45). -/
def runFromBytes (h : HostState) (l : Line) : Except ScriptError HostState :=
  match l.operands.map (byteBits h.env) with
  | [.ok b0, .ok b1, .ok b2, .ok b3] =>
    let w := fromBytes (BitVec.ofNat 8 b0) (BitVec.ofNat 8 b1) (BitVec.ofNat 8 b2) (BitVec.ofNat 8 b3)
    (bindAll l.dests [⟨32, w⟩] h.env).map fun env => ⟨env, h.machine⟩
  | [.error e, _, _, _] => .error e
  | [_, .error e, _, _] => .error e
  | [_, _, .error e, _] => .error e
  | [_, _, _, .error e] => .error e
  | _ => .error .wrongCount

/-- TOBYTES: no transaction, the four bytes of a word (R45). -/
def runToBytes (h : HostState) (l : Line) : Except ScriptError HostState :=
  match l.operands.map (operandBits h.env .a) with
  | [.ok w] =>
    (bindAll l.dests ((toBytes (BitVec.ofNat 32 w)).map fun b => ⟨8, b⟩) h.env).map
      fun env => ⟨env, h.machine⟩
  | [.error e] => .error e
  | _ => .error .wrongCount

/-- One line of a script (R44, R45). FROMBYTES and TOBYTES are no transaction and so have no status, and R45
is silent on a line of theirs that states one: DESIGN CHOICE (log entry 6), stating OK is accepted ("always
succeeds") and stating an error is a script error. -/
def runLine (h : HostState) (l : Line) : Except ScriptError HostState :=
  match l.head with
  | .op o => runOperation h l o id
  | .short al =>
    match al.op with
    | some o => runOperation h l o (aliasKeeps al)
    | none =>
      if statusAgrees l.status (some .ok) then
        (if al = .fromBytes then runFromBytes h l else runToBytes h l)
      else .error (.wrongStatus none)

/-- A script, ordered by the host alone (R22, R44). -/
def runScript (h : HostState) : List Line → Except ScriptError HostState
  | [] => .ok h
  | l :: rest =>
    match runLine h l with
    | .ok h' => runScript h' rest
    | .error e => .error e

end Sys2Proof.Machine
end

