-- ==== Sys2Proof/Machine/Value.lean ====
section
/-! DEFINITION. The exact value of an IBM word (10_state.md R15) and of a double (R18), as rationals: what
claims about numeric results are stated in. No operation computes with these. -/

namespace Sys2Proof.Machine

/-- `(-1)^s` as a rational. -/
def signQ (s : BitVec 1) : ℚ := if s = 1#1 then -1 else 1

/-- `val(w) = (-1)^w[31] * w[23:0] * 2^(4*w[30:24] - 280)` (R15). -/
def val (w : IbmWord) : ℚ :=
  signQ (sign w) * ((mant w).toNat : ℚ) * (2 : ℚ) ^ (4 * ((expf w).toNat : ℤ) - 280)

/-- The value of a double; none for an infinity or a NaN (R18). -/
def doubleVal (d : Double64) : Option ℚ :=
  if (dblExp d).toNat = 2047 then none
  else if (dblExp d).toNat = 0 then
    some (signQ (dblSign d) * ((dblFrac d).toNat : ℚ) * (2 : ℚ) ^ (-1074 : ℤ))
  else
    some (signQ (dblSign d) * ((2 ^ 52 + (dblFrac d).toNat : ℕ) : ℚ)
      * (2 : ℚ) ^ (((dblExp d).toNat : ℤ) - 1075))

end Sys2Proof.Machine
end

