-- ==== Sys2Proof/Safety.lean ====
section
/-! DEFINITION. What counts as a safe run, in the words claims use: the output bundle has one of the
shapes of 30_encoding.md R40, and what it carries lies where the spec says every result lies. Beside it
the vocabulary of numeric claims, written from the rules by arithmetic on the whole port value and on
exact rationals, apart from the bit slices and shifts the machine computes with. -/

namespace Sys2Proof.Machine

/-- The result ports that are driven, in the order of R13. -/
def OutPorts.driven (o : OutPorts) : List OutPort :=
  [OutPort.r, .q, .x, .z, .p, .fs, .fe, .fm, .ft].filter fun port => (o.value port).isSome

/-- The bundle is what R40 lets the operation give: OK with exactly its "drives" ports, or one of the
errors it can raise with no result port at all (R26, R83). -/
def OutPorts.AgreesWith (o : OutPorts) (op : Op) : Prop :=
  (o.st = some .ok ∧ o.driven = op.drives) ∨
    ∃ k ∈ op.raises, o.st = some k.status ∧ o.driven = []

/-- The double is neither an infinity nor a NaN nor a subnormal double (R4, R47). -/
def ordinaryDouble (q : Double64) : Prop :=
  (dblExp q).toNat ≠ 2047 ∧ ((dblExp q).toNat = 0 → (dblFrac q).toNat = 0)

/-- What every output bundle satisfies: nothing driven yet, or a shape of R40; no NaN, infinity or
subnormal double (R47); FREXP's exponent range (R71); the integer range (R77); the true exponent is the
field minus 64 (R57). -/
structure OutPorts.Legal (o : OutPorts) : Prop where
  shape : o = OutPorts.undriven ∨ ∃ op, o.AgreesWith op
  double : ∀ q, o.q = some q → ordinaryDouble q
  exponent : ∀ x, o.x = some x → -279 ≤ x.toInt ∧ x.toInt ≤ 252
  integer : ∀ z, o.z = some z → |z.toInt| ≤ (2 ^ 24 - 1) * 2 ^ 228
  trueExp : ∀ e t, o.fe = some e → o.ft = some t → t.toInt = (e.toNat : ℤ) - 64

/-- The machine's invariant: the output bundle is legal. -/
def State.Inv (s : State) : Prop := s.out.Legal

/-- The sign of a word as a number, bit 31 (R14). -/
def fieldS (w : IbmWord) : Nat := w.toNat / 2 ^ 31

/-- The exponent field of a word as a number, bits 30 to 24 (R14). -/
def fieldE (w : IbmWord) : Nat := w.toNat / 2 ^ 24 % 2 ^ 7

/-- The mantissa of a word as a number, bits 23 to 0 (R14). -/
def fieldM (w : IbmWord) : Nat := w.toNat % 2 ^ 24

/-- The word with these fields. -/
def wordOf (s e m : Nat) : IbmWord := BitVec.ofNat 32 (s * 2 ^ 31 + e * 2 ^ 24 + m)

/-- The sign of a double as a number, bit 63 (R18). -/
def doubleS (d : Double64) : Nat := d.toNat / 2 ^ 63

/-- The biased exponent of a double as a number, bits 62 to 52 (R18). -/
def doubleE (d : Double64) : Nat := d.toNat / 2 ^ 52 % 2 ^ 11

/-- The fraction of a double as a number, bits 51 to 0 (R18). -/
def doubleF (d : Double64) : Nat := d.toNat % 2 ^ 52

/-- The double with these fields. -/
def doubleOf (s e f : Nat) : Double64 := BitVec.ofNat 64 (s * 2 ^ 63 + e * 2 ^ 52 + f)

/-- The output bundle of a transaction that completes with one IBM word (R40). -/
def completesWith (r : IbmWord) : OutPorts := { OutPorts.undriven with st := some .ok, r := some r }

/-- The output bundle of a transaction that raises (R26). -/
def raisesKind (k : ErrorKind) : OutPorts := { OutPorts.undriven with st := some k.status }

/-- The value of `MAX_IBM_FLOAT`, `(2^24 - 1) * 2^228` (R19). -/
def maxMagnitude : ℚ := (2 ^ 24 - 1) * 2 ^ 228

/-- `o` is what encoding the exact real `v` gives (R48 to R50, by value): Overflow above the largest
magnitude, the canonical zero for zero, Underflow for a non-zero magnitude below `2^-280`, else the word
with the sign of `v` whose magnitude is the largest not above `|v|` in units of its last place,
normalized from `2^-260` up and at field 0 below. -/
def EncodesTo (v : ℚ) (o : OutPorts) : Prop :=
  if maxMagnitude < |v| then o = raisesKind .overflow
  else if v = 0 then o = completesWith 0x00000000#32
  else if |v| < (2 : ℚ) ^ (-280 : ℤ) then o = raisesKind .underflow
  else ∃ r : IbmWord, o = completesWith r ∧ (fieldS r = 1 ↔ v < 0) ∧ |val r| ≤ |v| ∧
    |v| - |val r| < (2 : ℚ) ^ (4 * (fieldE r : ℤ) - 280) ∧
    ((2 : ℚ) ^ (-260 : ℤ) ≤ |v| → 2 ^ 20 ≤ fieldM r) ∧
    (|v| < (2 : ℚ) ^ (-260 : ℤ) → fieldE r = 0)

/-- `o` is what ENC gives for `(-1)^s * sig * 2^(x-52)`, by the bits (R48), with divisions for its
shifts. -/
def EncGives (s sig : Nat) (x : ℤ) (o : OutPorts) : Prop :=
  if 252 ≤ x ∨ x = 251 ∧ (2 ^ 24 - 1) * 2 ^ 29 < sig then o = raisesKind .overflow
  else if x ≤ -281 then o = raisesKind .underflow
  else if -260 ≤ x then
    o = completesWith (wordOf s (x / 4 + 65).toNat (sig / 2 ^ (32 - x % 4).toNat))
  else o = completesWith (wordOf s 0 (sig / 2 ^ (-228 - x).toNat))

/-- `r` is `(s, e, m)` brought up by whole hex digits as far as the field allows: `k = min(lzd(m), e)`
digits (R51, R64). -/
def NormalizedAsFarAs (s e m : Nat) (r : IbmWord) : Prop :=
  ∃ k, k ≤ e ∧ m * 16 ^ k < 2 ^ 24 ∧ (2 ^ 20 ≤ m * 16 ^ k ∨ k = e) ∧ r = wordOf s (e - k) (m * 16 ^ k)

/-- The integer part of a word's magnitude: the mantissa moved by whole hex digits about field 70 (R73). -/
def integerPart (w : IbmWord) : Nat :=
  if 70 ≤ fieldE w then fieldM w * 16 ^ (fieldE w - 70) else fieldM w / 16 ^ (70 - fieldE w)

/-- 1 when a non-zero fractional part is dropped, else 0 (R73). -/
def fractionDropped (w : IbmWord) : Nat :=
  if fieldE w < 70 ∧ fieldM w % 16 ^ (70 - fieldE w) ≠ 0 then 1 else 0

/-- The signed integer with sign bit `s` and magnitude `m`. -/
def signedNat (s m : Nat) : ℤ := if s = 1 then -(m : ℤ) else (m : ℤ)

/-- The aligned mantissa of a word at the larger of two fields: whole hex digits dropped (R64 step 1). -/
def alignedTo (e : Nat) (w : IbmWord) : Nat := fieldM w / 16 ^ (e - fieldE w)

/-- The signed sum of the aligned mantissas, the second with the sign `sb` (R64 steps 1 and 2). -/
def alignedSum (a b : IbmWord) (sb : Nat) : ℤ :=
  signedNat (fieldS a) (alignedTo (max (fieldE a) (fieldE b)) a) +
    signedNat sb (alignedTo (max (fieldE a) (fieldE b)) b)

/-- `o` is what R64 gives for the words `a` and `b`, the second with the sign `sb`. -/
def AddCoreGives (a b : IbmWord) (sb : Nat) (o : OutPorts) : Prop :=
  let e := max (fieldE a) (fieldE b)
  let sum := alignedSum a b sb
  let s := if sum < 0 then 1 else 0
  if sum = 0 then o = completesWith 0x00000000#32
  else if 2 ^ 24 ≤ sum.natAbs then
    if e = 127 then o = raisesKind .overflow
    else o = completesWith (wordOf s (e + 1) (sum.natAbs / 16))
  else ∃ r, o = completesWith r ∧ NormalizedAsFarAs s e sum.natAbs r

end Sys2Proof.Machine

namespace Sys2Proof

/-- What a request has on an operand port. -/
def Request.portBits (req : Request) : InPort → Nat
  | .a => req.a.toNat
  | .b => req.b.toNat
  | .d => req.d.toNat
  | .n => req.n.toNat
  | .cs => req.cs.toNat
  | .ce => req.ce.toNat
  | .cm => req.cm.toNat

end Sys2Proof
end

