-- ==== Sys2Proof/Certificates/Slice0/Obligations.lean ====
section
/-! DEFINITION. The statements for the provers. Each says which rule of spec/ it formalises. Field and
value vocabulary (`fieldE`, `wordOf`, `EncodesTo`, `AddCoreGives`, …) is in Sys2Proof/Safety.lean. A
statement that fixes `t.out` whole fixes which ports are driven: every port it does not name is
undriven (R26). -/

open Sys2Proof Sys2Proof.Machine

/-! ## Encoding and the step -/

/-- R38, R39, R44: decoding undoes encoding over any background (the ports an operation does not read are
don't-care), and a request that decodes to an instruction is that instruction's encoding over itself. -/
def Obligations.DecodeEncodeRoundTrip : Prop :=
  (∀ (bg : Request) (i : Instr), decode (encodeOnto bg i) = .ok i) ∧
    ∀ (req : Request) (i : Instr), decode req = .ok i → encodeOnto req i = req

/-- R39 for the codes: words of the operation map, written out bit by bit, one of each family, select
their operations. That the operand ports of a table word are zero is THE MODEL'S CHOICE, no rule of the
spec: log entry 1 (DESIGN CHOICE), since the table gives the operands no bits. -/
def Obligations.CodeWordsDecode : Prop :=
  decodeTableWord 8 0b00000000 = some (.ibm2ieee 0) ∧
  decodeTableWord 8 0b00000001 = some (.ieee2ibm 0) ∧
  decodeTableWord 8 0b00000011 = some (.compose 0 0 0) ∧
  decodeTableWord 8 0b00000111 = some (.normalize 0) ∧
  decodeTableWord 8 0b00001010 = some (.neg 0) ∧
  decodeTableWord 8 0b00001100 = some (.sub 0 0) ∧
  decodeTableWord 8 0b00001101 = some (.ldexp 0 0) ∧
  decodeTableWord 8 0b00010001 = some (.floor 0) ∧
  decodeTableWord 8 0b00010010 = none

/-- R11, R39: a step is the evaluation of the instruction the presented request decodes to. -/
def Obligations.StepRunsDecodedInstruction : Prop :=
  ∀ (s : State) (i : Instr), decode s.inp = .ok i → step s = exec i s

/-- R41: a reserved code is refused by name, with no next state (so neither an error kind nor a no-op);
every other request completes a transaction, whatever values its other fields have. -/
def Obligations.ReservedCodesAreRefused : Prop :=
  ∀ s : State,
    (0x12 ≤ s.inp.op.toNat → step s = .refused (.reservedCode s.inp.op)) ∧
    (s.inp.op.toNat ≤ 0x11 → ∃ t, step s = .next t ∧ t.inp = s.inp ∧ t.out.st ≠ none)

/-- R40: an operation reads only the ports of its "reads" column, drives OK and exactly its "drives"
column or raises an error of its "can raise" column with no result port; and every listed error can be
raised. -/
def Obligations.OperationsFollowThePortMap : Prop :=
  (∀ (o : Op) (s : State), s.inp.op = o.code →
    ∃ t, step s = .next t ∧ t.inp = s.inp ∧ t.out.AgreesWith o) ∧
  (∀ (o : Op) (s u : State), s.inp.op = o.code → u.inp.op = o.code →
    (∀ p ∈ o.reads, s.inp.portBits p = u.inp.portBits p) →
    ∃ t v, step s = .next t ∧ step u = .next v ∧ t.out = v.out) ∧
  (∀ (o : Op) (k : ErrorKind), k ∈ o.raises →
    ∃ s t, s.inp.op = o.code ∧ step s = .next t ∧ t.out.st = some k.status)

/-! ## The whole machine -/

/-- R11: equal input bundles give equal output bundles, from whatever state and after whatever
transactions came between. -/
def Obligations.EqualRequestsGiveEqualOutputs : Prop :=
  ∀ (s u : State) (between : List Request) (req : Request), s.transactAll between = .next u →
    (∃ t v, s.transact req = .next t ∧ u.transact req = .next v ∧ t.out = v.out) ∨
    (∃ r, s.transact req = .refused r ∧ u.transact req = .refused r)

/-- R32: a transaction repeated with the same inputs gives the same outputs, OK or error. -/
def Obligations.RepeatingATransactionIsIdempotent : Prop :=
  ∀ s t : State, step s = .next t → ∃ u, step t = .next u ∧ u.out = t.out ∧ u.inp = s.inp

/-- R26, R83: when the status is an error's, no result port is driven and the inputs are as presented;
nothing is clamped or flushed into a result. -/
def Obligations.ErrorsDriveNoResult : Prop :=
  ∀ (s t : State) (k : ErrorKind), step s = .next t → t.out.st = some k.status →
    t.out = raisesKind k ∧ t.inp = s.inp

/-- R20: after every transaction `st` carries one of the four codes, and their numbers. -/
def Obligations.StatusCarriesOneOfFourCodes : Prop :=
  (∀ s t : State, step s = .next t → ∃ v, t.out.st = some v ∧ t.readSt = v.code) ∧
  Status.code .ok = 0#2 ∧ Status.code .invalidValue = 1#2 ∧ Status.code .overflow = 2#2 ∧
  Status.code .underflow = 3#2

/-- THE MODEL'S CHOICE for R26 (log entry 2): a read of an undriven port is the free value of the port
for the request on the input ports at the current draw, and every transaction takes a draw of its own. -/
def Obligations.UndrivenReadsAreFreshDraws : Prop :=
  (∀ s t : State, step s = .next t → t.draws = s.draws + 1) ∧
  ∀ s : State,
    (s.out.st = none → s.readSt = Config.undrivenSt s.inp s.draws) ∧
    (s.out.r = none → s.readR = Config.undrivenR s.inp s.draws) ∧
    (s.out.q = none → s.readQ = Config.undrivenQ s.inp s.draws) ∧
    (s.out.x = none → s.readX = Config.undrivenX s.inp s.draws) ∧
    (s.out.z = none → s.readZ = Config.undrivenZ s.inp s.draws) ∧
    (s.out.p = none → s.readP = Config.undrivenP s.inp s.draws) ∧
    (s.out.fs = none → s.readFs = Config.undrivenFs s.inp s.draws) ∧
    (s.out.fe = none → s.readFe = Config.undrivenFe s.inp s.draws) ∧
    (s.out.fm = none → s.readFm = Config.undrivenFm s.inp s.draws) ∧
    (s.out.ft = none → s.readFt = Config.undrivenFt s.inp s.draws)

/-- The invariant every step keeps: the output bundle has a shape of R40, carries no NaN, infinity or
subnormal double (R47), FREXP's exponent and every integer lie in their ranges (R71, R77), and the true
exponent is the field minus 64 (R57). -/
def Obligations.StepKeepsLegalOutputs : Prop :=
  ∀ s t : State, s.Inv → step s = .next t → t.Inv

/-- The invariant holds at reset. -/
def Obligations.ResetHasLegalOutputs : Prop := State.reset.Inv

/-- First clause, THE MODEL'S CHOICE and no rule of the spec (log entry 2, DESIGN CHOICE): at reset no output
port is driven. Second clause, R89: the first transaction behaves like every other; the request is
presented, so the reset values of the input ports (log entry 3) play no part. -/
def Obligations.ResetDrivesNothing : Prop :=
  State.reset.out = OutPorts.undriven ∧
  ∀ (s : State) (req : Request),
    (∃ t v, State.reset.transact req = .next t ∧ s.transact req = .next v ∧ t.out = v.out) ∨
    (∃ r, State.reset.transact req = .refused r ∧ s.transact req = .refused r)

/-! ## The words -/

/-- R29: the first byte is the most significant, and no bit is lost in either direction (R45). -/
def Obligations.BytesAreBigEndian : Prop :=
  (∀ b0 b1 b2 b3 : Byte, (fromBytes b0 b1 b2 b3).toNat =
      b0.toNat * 2 ^ 24 + b1.toNat * 2 ^ 16 + b2.toNat * 2 ^ 8 + b3.toNat ∧
    toBytes (fromBytes b0 b1 b2 b3) = [b0, b1, b2, b3]) ∧
  ∀ w : IbmWord, ∃ b0 b1 b2 b3, toBytes w = [b0, b1, b2, b3] ∧ fromBytes b0 b1 b2 b3 = w

/-- R15, R16: a word's value is zero exactly when its mantissa is, and a non-zero magnitude lies between
`2^-280` and `(2^24 - 1) * 2^228`, both attained. -/
def Obligations.NonzeroMagnitudesLieInRange : Prop :=
  (∀ w : IbmWord, (val w = 0 ↔ fieldM w = 0) ∧
    (fieldM w ≠ 0 → (2 : ℚ) ^ (-280 : ℤ) ≤ |val w| ∧ |val w| ≤ maxMagnitude)) ∧
  val 0x00000001#32 = (2 : ℚ) ^ (-280 : ℤ) ∧ val 0x7FFFFFFF#32 = maxMagnitude

/-- R17: exactly one of zero, subnormal and non-zero normalized holds of every word, by its bits. -/
def Obligations.EveryWordHasOneClass : Prop :=
  ∀ w : IbmWord,
    (isZeroWord w = true ↔ fieldM w = 0) ∧
    (isSubnormalWord w = true ↔ fieldM w ≠ 0 ∧ fieldM w < 2 ^ 20) ∧
    (isNormalizedWord w = true ↔ fieldM w = 0 ∨ 2 ^ 20 ≤ fieldM w)

/-- R19: the values of the named constants. -/
def Obligations.NamedConstantsHaveTheirValues : Prop :=
  exponentBias = 64 ∧
  val maxIbmFloat = (2 ^ 24 - 1) * 2 ^ 228 ∧ ibm2ieee maxIbmFloat = 0x4FAFFFFFE0000000#64 ∧
  val minIbmFloat = -((2 ^ 24 - 1) * 2 ^ 228) ∧ ibm2ieee minIbmFloat = 0xCFAFFFFFE0000000#64 ∧
  val smallestPositiveNormalIbmFloat = (2 : ℚ) ^ (-260 : ℤ) ∧
  ibm2ieee smallestPositiveNormalIbmFloat = 0x2FB0000000000000#64 ∧
  val largestNegativeNormalIbmFloat = -(2 : ℚ) ^ (-260 : ℤ) ∧
  ibm2ieee largestNegativeNormalIbmFloat = 0xAFB0000000000000#64 ∧
  val smallestSubnormal = (2 : ℚ) ^ (-280 : ℤ) ∧ ibm2ieee smallestSubnormal = 0x2E70000000000000#64 ∧
  val epsilonIbmFloat = (2 : ℚ) ^ (-24 : ℤ) ∧ val epsilonNormalized = (2 : ℚ) ^ (-24 : ℤ) ∧
  ibm2ieee epsilonIbmFloat = 0x3E70000000000000#64 ∧
  val maxExactIntegerIbmFloat = 2 ^ 24 ∧ ibm2ieee maxExactIntegerIbmFloat = 0x4170000000000000#64 ∧
  val minExactIntegerIbmFloat = -2 ^ 24 ∧ ibm2ieee minExactIntegerIbmFloat = 0xC170000000000000#64

/-! ## The codec -/

/-- R46: code, ports read and driven, and the double bit for bit. -/
def Obligations.Ibm2ieeeResult : Prop :=
  (∀ req : Request, decode { req with op := 0x00#5 } = .ok (.ibm2ieee req.a)) ∧
  ∀ (a : IbmWord) (s : State), ∃ t q, exec (.ibm2ieee a) s = .next t ∧ t.inp = s.inp ∧
    t.out = { OutPorts.undriven with st := some .ok, q := some q } ∧
    (fieldM a = 0 → q = doubleOf (fieldS a) 0 0) ∧
    (fieldM a ≠ 0 → ∃ p, 2 ^ p ≤ fieldM a ∧ fieldM a < 2 ^ (p + 1) ∧
      q = doubleOf (fieldS a) (4 * fieldE a + p + 743) (fieldM a * 2 ^ (52 - p) - 2 ^ 52))

/-- R47: exact, total, in range, low 29 fraction bits zero, not injective, sign copied. -/
def Obligations.Ibm2ieeeIsExact : Prop :=
  (∀ (a : IbmWord) (s : State), ∃ t q, exec (.ibm2ieee a) s = .next t ∧ t.out.st = some .ok ∧
    t.out.q = some q ∧ doubleVal q = some (val a) ∧ doubleS q = fieldS a ∧
    doubleF q % 2 ^ 29 = 0 ∧
    (fieldM a ≠ 0 → 743 ≤ doubleE q ∧ doubleE q ≤ 1274)) ∧
  (∀ s : State, exec (.ibm2ieee 0x40000001#32) s = exec (.ibm2ieee 0x3B100000#32) s)

/-- R49: code, ports, and every outcome on the bits of the double. -/
def Obligations.Ieee2ibmResult : Prop :=
  (∀ req : Request, decode { req with op := 0x01#5 } = .ok (.ieee2ibm req.d)) ∧
  ∀ (d : Double64) (s : State), ∃ t, exec (.ieee2ibm d) s = .next t ∧ t.inp = s.inp ∧
    t.out =
      if doubleE d = 2047 then raisesKind .invalidValue
      else if doubleE d = 0 ∧ doubleF d = 0 then completesWith 0x00000000#32
      else if doubleE d ≤ 742 then raisesKind .underflow
      else if 1275 ≤ doubleE d ∨
          doubleE d = 1274 ∧ doubleF d / 2 ^ 29 = 2 ^ 23 - 1 ∧ doubleF d % 2 ^ 29 ≠ 0 then
        raisesKind .overflow
      else if 763 ≤ doubleE d then
        completesWith (wordOf (doubleS d) ((doubleE d + 1) / 4 - 191)
          ((2 ^ 52 + doubleF d) / 2 ^ (32 - (doubleE d + 1) % 4)))
      else completesWith (wordOf (doubleS d) 0 ((2 ^ 52 + doubleF d) / 2 ^ (795 - doubleE d)))

/-- R48 to R50, by value: IEEE2IBM raises InvalidValue exactly for what has no value, and otherwise
encodes the double's exact value, truncating the magnitude. -/
def Obligations.Ieee2ibmEncodesTheValue : Prop :=
  ∀ (d : Double64) (s : State), ∃ t, exec (.ieee2ibm d) s = .next t ∧ t.inp = s.inp ∧
    (doubleVal d = none → t.out = raisesKind .invalidValue) ∧
    ∀ v, doubleVal d = some v → EncodesTo v t.out

/-- R51 item 1: word to double to word completes for every word and gives the same value normalized as
far as the field allows, the canonical zero for a zero word; and which words come back themselves. -/
def Obligations.WordToDoubleToWord : Prop :=
  ∀ (w : IbmWord) (s u : State), ∃ t q v r, exec (.ibm2ieee w) s = .next t ∧ t.out.q = some q ∧
    exec (.ieee2ibm q) u = .next v ∧ v.out = completesWith r ∧
    (fieldM w = 0 → r = 0x00000000#32) ∧
    (fieldM w ≠ 0 → NormalizedAsFarAs (fieldS w) (fieldE w) (fieldM w) r ∧ val r = val w) ∧
    (r = w ↔ w = 0x00000000#32 ∨ fieldM w ≠ 0 ∧ (2 ^ 20 ≤ fieldM w ∨ fieldE w = 0))

/-- R51 items 2 to 4: double to word to double loses less than a unit in the last place of the word, less
than `2^-20` of the magnitude when the word is normalized, keeps the sign, and loses nothing of a double
that is the value of a word. -/
def Obligations.DoubleToWordToDouble : Prop :=
  ∀ (d : Double64) (x : ℚ) (s u : State), doubleVal d = some x → (2 : ℚ) ^ (-280 : ℤ) ≤ |x| →
    |x| ≤ maxMagnitude →
    ∃ t r v q y, exec (.ieee2ibm d) s = .next t ∧ t.out = completesWith r ∧
      exec (.ibm2ieee r) u = .next v ∧ v.out.q = some q ∧ doubleVal q = some y ∧
      fieldS r = doubleS d ∧ 0 ≤ |x| - |y| ∧ |x| - |y| < (2 : ℚ) ^ (4 * (fieldE r : ℤ) - 280) ∧
      (2 ^ 20 ≤ fieldM r → |x| - |y| < (2 : ℚ) ^ (-20 : ℤ) * |x|) ∧
      ((∃ w, val w = x) → q = d)

/-! ## The decomposer and the predicates -/

/-- R52: code, ports, the three stored fields and the true exponent. -/
def Obligations.DecompResult : Prop :=
  (∀ req : Request, decode { req with op := 0x02#5 } = .ok (.decomp req.a)) ∧
  ∀ (a : IbmWord) (s : State), ∃ t fs fe fm ft, exec (.decomp a) s = .next t ∧ t.inp = s.inp ∧
    t.out = { OutPorts.undriven with
      st := some .ok, fs := some fs, fe := some fe, fm := some fm, ft := some ft } ∧
    fs.toNat = fieldS a ∧ fe.toNat = fieldE a ∧ fm.toNat = fieldM a ∧
    ft.toInt = (fieldE a : ℤ) - 64

/-- R53: code, ports, concatenation of the three fields. -/
def Obligations.ComposeResult : Prop :=
  (∀ req : Request, decode { req with op := 0x03#5 } = .ok (.compose req.cs req.ce req.cm)) ∧
  ∀ (cs : BitVec 1) (ce : BitVec 7) (cm : BitVec 24) (s : State),
    ∃ t, exec (.compose cs ce cm) s = .next t ∧ t.inp = s.inp ∧
      t.out = completesWith (wordOf cs.toNat ce.toNat cm.toNat)

/-- R54, R55, R56: codes, ports, and the predicate bit of ISZERO, ISSUBN and TOBOOL. -/
def Obligations.PredicateResults : Prop :=
  (∀ req : Request, decode { req with op := 0x04#5 } = .ok (.isZero req.a) ∧
    decode { req with op := 0x05#5 } = .ok (.isSubn req.a) ∧
    decode { req with op := 0x06#5 } = .ok (.toBool req.a)) ∧
  ∀ (a : IbmWord) (s : State),
    (∃ t, exec (.isZero a) s = .next t ∧ t.inp = s.inp ∧ t.out = { OutPorts.undriven with
      st := some .ok, p := some (if fieldM a = 0 then 1#1 else 0#1) }) ∧
    (∃ t, exec (.isSubn a) s = .next t ∧ t.inp = s.inp ∧ t.out = { OutPorts.undriven with
      st := some .ok, p := some (if fieldM a ≠ 0 ∧ fieldM a < 2 ^ 20 then 1#1 else 0#1) }) ∧
    (∃ t, exec (.toBool a) s = .next t ∧ t.inp = s.inp ∧ t.out = { OutPorts.undriven with
      st := some .ok, p := some (if fieldM a ≠ 0 then 1#1 else 0#1) })

/-- R57: COMPOSE undoes DECOMP and DECOMP undoes COMPOSE, on the ports; the value from the fields. -/
def Obligations.DecomposeAndComposeAreInverse : Prop :=
  (∀ (a : IbmWord) (s u : State), ∃ t fs fe fm ft v, exec (.decomp a) s = .next t ∧
    t.out.fs = some fs ∧ t.out.fe = some fe ∧ t.out.fm = some fm ∧ t.out.ft = some ft ∧
    exec (.compose fs fe fm) u = .next v ∧ v.out.r = some a ∧
    val a = (-1) ^ fs.toNat * ((fm.toNat : ℚ) / 2 ^ 24) * (16 : ℚ) ^ ft.toInt) ∧
  ∀ (fs : BitVec 1) (fe : BitVec 7) (fm : BitVec 24) (s u : State), ∃ t a v,
    exec (.compose fs fe fm) s = .next t ∧ t.out.r = some a ∧ exec (.decomp a) u = .next v ∧
    v.out.fs = some fs ∧ v.out.fe = some fe ∧ v.out.fm = some fm

/-! ## The normalizer -/

/-- R58: code, ports, no-op on zero and normalized words, `k` digits left and `k` off the field on a
subnormal word, Underflow exactly when the field is below `k`; the value is unchanged. -/
def Obligations.NormalizeResult : Prop :=
  (∀ req : Request, decode { req with op := 0x07#5 } = .ok (.normalize req.a)) ∧
  ∀ (a : IbmWord) (s : State), ∃ t, exec (.normalize a) s = .next t ∧ t.inp = s.inp ∧
    (fieldM a = 0 ∨ 2 ^ 20 ≤ fieldM a → t.out = completesWith a) ∧
    (fieldM a ≠ 0 ∧ fieldM a < 2 ^ 20 →
      ∃ k, 1 ≤ k ∧ k ≤ 5 ∧ 2 ^ 20 ≤ fieldM a * 16 ^ k ∧ fieldM a * 16 ^ k < 2 ^ 24 ∧
        (fieldE a < k → t.out = raisesKind .underflow) ∧
        (k ≤ fieldE a → t.out =
          completesWith (wordOf (fieldS a) (fieldE a - k) (fieldM a * 16 ^ k)))) ∧
    (∀ r, t.out.r = some r → val r = val a)

/-- The spec's own inference in R58 ("equivalently when `|val(a)| < 2^-260`"): NORMALIZE raises, and then
Underflow, exactly for a non-zero word below the smallest normal magnitude. -/
def Obligations.NormalizeFailsBelowSmallestNormal : Prop :=
  ∀ (a : IbmWord) (s : State), ∃ t, exec (.normalize a) s = .next t ∧
    if val a ≠ 0 ∧ |val a| < (2 : ℚ) ^ (-260 : ℤ) then t.out = raisesKind .underflow
    else ∃ r, t.out = completesWith r

/-- R59: code, ports, the canonical zero exactly for a subnormal word. -/
def Obligations.ZeroSubnResult : Prop :=
  (∀ req : Request, decode { req with op := 0x08#5 } = .ok (.zeroSubn req.a)) ∧
  ∀ (a : IbmWord) (s : State), ∃ t, exec (.zeroSubn a) s = .next t ∧ t.inp = s.inp ∧
    t.out = completesWith (if fieldM a ≠ 0 ∧ fieldM a < 2 ^ 20 then 0x00000000#32 else a)

/-- R60: NORMALIZE's result is not subnormal and NORMALIZE keeps it; likewise ZEROSUBN's. -/
def Obligations.NormalizerIsIdempotent : Prop :=
  (∀ (a r : IbmWord) (s t u : State), exec (.normalize a) s = .next t → t.out.r = some r →
    ∃ v x, exec (.normalize r) u = .next v ∧ v.out = completesWith r ∧
      exec (.isSubn r) u = .next x ∧ x.out.p = some 0#1) ∧
  ∀ (a : IbmWord) (s u : State), ∃ t r v x, exec (.zeroSubn a) s = .next t ∧ t.out.r = some r ∧
    exec (.zeroSubn r) u = .next v ∧ v.out = completesWith r ∧
    exec (.isSubn r) u = .next x ∧ x.out.p = some 0#1

/-- R60: two non-zero words have the same value exactly when their signs agree and one is the other with
the mantissa moved by whole hex digits against the field; so a value has at most one normalized word. -/
def Obligations.EqualValuesDifferByDigitMoves : Prop :=
  (∀ a b : IbmWord, fieldM a ≠ 0 → fieldM b ≠ 0 →
    (val a = val b ↔ fieldS a = fieldS b ∧ ∃ j,
      (fieldE b = fieldE a + j ∧ fieldM a = fieldM b * 16 ^ j) ∨
      (fieldE a = fieldE b + j ∧ fieldM b = fieldM a * 16 ^ j))) ∧
  ∀ a b : IbmWord, 2 ^ 20 ≤ fieldM a → 2 ^ 20 ≤ fieldM b → val a = val b → a = b

/-- R58, R91: the loop never needs more than five turns. -/
def Obligations.NormalizeLoopNeedsFiveTurns : Prop :=
  ∀ (s : BitVec 1) (e : Nat) (m : BitVec 24) (extra : Nat), m ≠ 0#24 →
    normalizeLoop s (5 + extra) e m = normalizeLoop s 5 e m

/-! ## Sign operations -/

/-- R61: code, ports, bit 31 cleared and nothing else. -/
def Obligations.AbsResult : Prop :=
  (∀ req : Request, decode { req with op := 0x09#5 } = .ok (.abs req.a)) ∧
  ∀ (a : IbmWord) (s : State), ∃ t, exec (.abs a) s = .next t ∧ t.inp = s.inp ∧
    t.out = completesWith (wordOf 0 (fieldE a) (fieldM a))

/-- R62: code, ports, bit 31 inverted and nothing else; its own inverse. -/
def Obligations.NegResult : Prop :=
  (∀ req : Request, decode { req with op := 0x0A#5 } = .ok (.neg req.a)) ∧
  ∀ (a : IbmWord) (s u : State), ∃ t r v, exec (.neg a) s = .next t ∧ t.inp = s.inp ∧
    t.out = completesWith r ∧ r = wordOf (1 - fieldS a) (fieldE a) (fieldM a) ∧
    exec (.neg r) u = .next v ∧ v.out = completesWith a

/-- The spec's own inferences in R61 and R62: ABS gives the absolute value and NEG the negated value. -/
def Obligations.SignOperationsActOnTheValue : Prop :=
  ∀ (a : IbmWord) (s : State), ∃ t u r c, exec (.abs a) s = .next t ∧ t.out.r = some r ∧
    exec (.neg a) s = .next u ∧ u.out.r = some c ∧ val r = |val a| ∧ val c = -val a

/-! ## Addition and subtraction -/

/-- R64, R65: code, ports, and the sum by alignment, signed addition and re-encoding. -/
def Obligations.AddResult : Prop :=
  (∀ req : Request, decode { req with op := 0x0B#5 } = .ok (.add req.a req.b)) ∧
  ∀ (a b : IbmWord) (s : State), ∃ t, exec (.add a b) s = .next t ∧ t.inp = s.inp ∧
    AddCoreGives a b (fieldS b) t.out

/-- R64, R66: code, ports, and the difference: the second operand's sign is inverted. -/
def Obligations.SubResult : Prop :=
  (∀ req : Request, decode { req with op := 0x0C#5 } = .ok (.sub req.a req.b)) ∧
  ∀ (a b : IbmWord) (s : State), ∃ t, exec (.sub a b) s = .next t ∧ t.inp = s.inp ∧
    AddCoreGives a b (1 - fieldS b) t.out

/-- R65, R66: addition commutes; subtraction is addition of the negated word; a word minus itself is the
canonical zero; the two differences of two words differ only in the sign bit unless canonical zero. -/
def Obligations.SumsAndDifferencesAreRelated : Prop :=
  (∀ (a b : IbmWord) (s : State), ∃ t, exec (.add a b) s = .next t ∧ exec (.add b a) s = .next t) ∧
  (∀ (a b : IbmWord) (s u : State), ∃ t c v, exec (.neg b) u = .next v ∧ v.out.r = some c ∧
    exec (.sub a b) s = .next t ∧ exec (.add a c) s = .next t) ∧
  (∀ (a : IbmWord) (s : State), ∃ t, exec (.sub a a) s = .next t ∧
    t.out = completesWith 0x00000000#32) ∧
  ∀ (a b : IbmWord) (s : State), ∃ t u, exec (.sub a b) s = .next t ∧ exec (.sub b a) s = .next u ∧
    ((t.out = raisesKind .overflow ∧ u.out = raisesKind .overflow) ∨
     (t.out = completesWith 0x00000000#32 ∧ u.out = completesWith 0x00000000#32) ∨
     ∃ r, t.out = completesWith r ∧ u.out = completesWith (r ^^^ 0x80000000#32))

/-- R67: ADD and SUB raise Overflow exactly when the larger field is 127 and the aligned magnitudes, of
the same effective sign, sum to `2^24` or more; on every other pair of words they complete. -/
def Obligations.AddSubRaiseOverflowExactly : Prop :=
  ∀ (a b : IbmWord) (s : State), ∃ t u, exec (.add a b) s = .next t ∧ exec (.sub a b) s = .next u ∧
    (if max (fieldE a) (fieldE b) = 127 ∧ fieldS a = fieldS b ∧
        2 ^ 24 ≤ alignedTo 127 a + alignedTo 127 b
      then t.out = raisesKind .overflow else ∃ r, t.out = completesWith r) ∧
    (if max (fieldE a) (fieldE b) = 127 ∧ fieldS a ≠ fieldS b ∧
        2 ^ 24 ≤ alignedTo 127 a + alignedTo 127 b
      then u.out = raisesKind .overflow else ∃ r, u.out = completesWith r)

/-- R68: the error of a sum or difference is below one unit in the last place at the larger field when no
carry occurred, below seventeen when one did. -/
def Obligations.AddSubAccuracy : Prop :=
  ∀ (a b r : IbmWord) (s t : State),
    (exec (.add a b) s = .next t → t.out.r = some r →
      |val a + val b - val r| <
        (if (alignedSum a b (fieldS b)).natAbs < 2 ^ 24 then 1 else 17) *
          (2 : ℚ) ^ (4 * ((max (fieldE a) (fieldE b) : ℕ) : ℤ) - 280)) ∧
    (exec (.sub a b) s = .next t → t.out.r = some r →
      |val a - val b - val r| <
        (if (alignedSum a b (1 - fieldS b)).natAbs < 2 ^ 24 then 1 else 17) *
          (2 : ℚ) ^ (4 * ((max (fieldE a) (fieldE b) : ℕ) : ℤ) - 280))

/-- R69: on canonical words the canonical zero is neutral, and a sum or difference is canonical or a
subnormal word at field 0. -/
def Obligations.CanonicalOperandsGiveCanonicalSums : Prop :=
  (∀ (a : IbmWord) (s : State), isCanonicalWord a = true → ∃ t u v,
    exec (.add a 0x00000000#32) s = .next t ∧ t.out = completesWith a ∧
    exec (.add 0x00000000#32 a) s = .next u ∧ u.out = completesWith a ∧
    exec (.sub a 0x00000000#32) s = .next v ∧ v.out = completesWith a) ∧
  ∀ (a b r : IbmWord) (s t : State), isCanonicalWord a = true → isCanonicalWord b = true →
    (exec (.add a b) s = .next t ∨ exec (.sub a b) s = .next t) → t.out.r = some r →
    isCanonicalWord r = true ∨ (fieldE r = 0 ∧ isSubnormalWord r = true)

/-! ## Fraction and binary exponent -/

/-- R70: code, ports, and every outcome on the bits of the fraction and the exponent, by ENC (R48). -/
def Obligations.LdexpResult : Prop :=
  (∀ req : Request, decode { req with op := 0x0D#5 } = .ok (.ldexp req.d req.n)) ∧
  ∀ (d : Double64) (n : ExpWord) (s : State), ∃ t, exec (.ldexp d n) s = .next t ∧ t.inp = s.inp ∧
    if doubleE d = 2047 then t.out = raisesKind .invalidValue
    else if doubleE d = 0 ∧ doubleF d = 0 then t.out = completesWith 0x00000000#32
    else if doubleE d = 0 then
      ∃ p : ℕ, 2 ^ p ≤ doubleF d ∧ doubleF d < 2 ^ (p + 1) ∧
        EncGives (doubleS d) (doubleF d * 2 ^ (52 - p)) ((p : ℤ) - 1074 + n.toInt) t.out
    else EncGives (doubleS d) (2 ^ 52 + doubleF d) ((doubleE d : ℤ) - 1023 + n.toInt) t.out

/-- R70, R48 to R50, by value: LDEXP raises InvalidValue exactly for a fraction with no value, and
otherwise encodes the exact product `fraction * 2^n`. -/
def Obligations.LdexpEncodesTheProduct : Prop :=
  ∀ (d : Double64) (n : ExpWord) (s : State), ∃ t, exec (.ldexp d n) s = .next t ∧ t.inp = s.inp ∧
    (doubleVal d = none → t.out = raisesKind .invalidValue) ∧
    ∀ v, doubleVal d = some v → EncodesTo (v * (2 : ℚ) ^ n.toInt) t.out

/-- R70: with exponent 0, LDEXP is IEEE2IBM, status included. -/
def Obligations.LdexpByZeroIsIeee2ibm : Prop :=
  ∀ (d : Double64) (s : State), ∃ t, exec (.ldexp d 0#16) s = .next t ∧
    exec (.ieee2ibm d) s = .next t

/-- R71: code, ports, and the pair bit for bit. -/
def Obligations.FrexpResult : Prop :=
  (∀ req : Request, decode { req with op := 0x0E#5 } = .ok (.frexp req.a)) ∧
  ∀ (a : IbmWord) (s : State), ∃ t q x, exec (.frexp a) s = .next t ∧ t.inp = s.inp ∧
    t.out = { OutPorts.undriven with st := some .ok, q := some q, x := some x } ∧
    (fieldM a = 0 → q = doubleOf (fieldS a) 0 0 ∧ x.toInt = 0) ∧
    (fieldM a ≠ 0 → ∃ p : ℕ, 2 ^ p ≤ fieldM a ∧ fieldM a < 2 ^ (p + 1) ∧
      q = doubleOf (fieldS a) 1022 (fieldM a * 2 ^ (52 - p) - 2 ^ 52) ∧
      x.toInt = 4 * (fieldE a : ℤ) + p - 279)

/-- The spec's own inference in R71: fraction times `2^x` is the word's value, sign included; the
fraction's magnitude lies in `[1/2, 1)` and `x` in `-279..252`. -/
def Obligations.FrexpPairRecoversTheValue : Prop :=
  ∀ (a : IbmWord) (s : State), ∃ t q x f, exec (.frexp a) s = .next t ∧ t.out.q = some q ∧
    t.out.x = some x ∧ doubleVal q = some f ∧ f * (2 : ℚ) ^ x.toInt = val a ∧
    (fieldM a ≠ 0 → 1 / 2 ≤ |f| ∧ |f| < 1 ∧ -279 ≤ x.toInt ∧ x.toInt ≤ 252)

/-- R72: LDEXP of FREXP's pair completes and gives the word that IEEE2IBM of IBM2IEEE gives: the canonical
zero for a zero word, else the same value normalized as far as the field allows. -/
def Obligations.LdexpUndoesFrexp : Prop :=
  ∀ (a : IbmWord) (s u : State), ∃ t f x v r t' q v', exec (.frexp a) s = .next t ∧
    t.out.q = some f ∧ t.out.x = some x ∧ exec (.ldexp f x) u = .next v ∧ v.out = completesWith r ∧
    exec (.ibm2ieee a) s = .next t' ∧ t'.out.q = some q ∧ exec (.ieee2ibm q) u = .next v' ∧
    v'.out = completesWith r ∧
    (r = a ↔ a = 0x00000000#32 ∨ fieldM a ≠ 0 ∧ (2 ^ 20 ≤ fieldM a ∨ fieldE a = 0))

/-! ## Integer parts -/

/-- R73 to R76: codes, ports, and the integer of TRUNC, CEIL and FLOOR from the integer part of the
magnitude and whether a fraction was dropped, for every word. -/
def Obligations.IntegerResults : Prop :=
  (∀ req : Request, decode { req with op := 0x0F#5 } = .ok (.trunc req.a) ∧
    decode { req with op := 0x10#5 } = .ok (.ceil req.a) ∧
    decode { req with op := 0x11#5 } = .ok (.floor req.a)) ∧
  ∀ (a : IbmWord) (s : State),
    (∃ t z, exec (.trunc a) s = .next t ∧ t.inp = s.inp ∧
      t.out = { OutPorts.undriven with st := some .ok, z := some z } ∧
      z.toInt = signedNat (fieldS a) (integerPart a)) ∧
    (∃ t z, exec (.ceil a) s = .next t ∧ t.inp = s.inp ∧
      t.out = { OutPorts.undriven with st := some .ok, z := some z } ∧
      z.toInt = if fieldS a = 0 then ((integerPart a + fractionDropped a : ℕ) : ℤ)
        else -(integerPart a : ℤ)) ∧
    (∃ t z, exec (.floor a) s = .next t ∧ t.inp = s.inp ∧
      t.out = { OutPorts.undriven with st := some .ok, z := some z } ∧
      z.toInt = if fieldS a = 0 then (integerPart a : ℤ)
        else -((integerPart a + fractionDropped a : ℕ) : ℤ))

/-- The spec's own inferences in R73, R75 and R76: TRUNC is the value truncated toward zero, CEIL the
least integer not below it, FLOOR the greatest not above it. -/
def Obligations.IntegerResultsAreTheRoundings : Prop :=
  ∀ (a : IbmWord) (s : State), ∃ t u v zt zc zf, exec (.trunc a) s = .next t ∧ t.out.z = some zt ∧
    exec (.ceil a) s = .next u ∧ u.out.z = some zc ∧ exec (.floor a) s = .next v ∧
    v.out.z = some zf ∧ zt.toInt = (if 0 ≤ val a then ⌊val a⌋ else ⌈val a⌉) ∧
    zc.toInt = ⌈val a⌉ ∧ zf.toInt = ⌊val a⌋

/-- R77: the three integers are ordered, one apart exactly at a fraction, agree from field 70 up, and have
magnitude at most `(2^24 - 1) * 2^228`. -/
def Obligations.IntegerPartsAreOrderedAndBounded : Prop :=
  ∀ (a : IbmWord) (s : State), ∃ t u v zt zc zf, exec (.trunc a) s = .next t ∧ t.out.z = some zt ∧
    exec (.ceil a) s = .next u ∧ u.out.z = some zc ∧ exec (.floor a) s = .next v ∧
    v.out.z = some zf ∧
    zf.toInt ≤ zt.toInt ∧ zt.toInt ≤ zc.toInt ∧
    ((∃ i : ℤ, (i : ℚ) = val a) → zc.toInt - zf.toInt = 0) ∧
    ((¬∃ i : ℤ, (i : ℚ) = val a) → zc.toInt - zf.toInt = 1) ∧
    (70 ≤ fieldE a → zt = zf ∧ zt = zc) ∧
    |zt.toInt| ≤ (2 ^ 24 - 1) * 2 ^ 228 ∧ |zc.toInt| ≤ (2 ^ 24 - 1) * 2 ^ 228 ∧
    |zf.toInt| ≤ (2 ^ 24 - 1) * 2 ^ 228

/-- R77: in the exact-integer range, truncating the encoded `i + f` gives `i`, and the mirrored form. -/
def Obligations.TruncOfEncodedGivesTheInteger : Prop :=
  ∀ (d : Double64) (i : ℤ) (f : ℚ) (r : IbmWord) (s t u : State), 0 ≤ f → f < 1 →
    (0 ≤ i ∧ i ≤ 2 ^ 24 ∧ doubleVal d = some (i + f) ∨
      -2 ^ 24 ≤ i ∧ i ≤ 0 ∧ doubleVal d = some (i - f)) →
    exec (.ieee2ibm d) s = .next t → t.out = completesWith r →
    ∃ v z, exec (.trunc r) u = .next v ∧ v.out.z = some z ∧ z.toInt = i

/-! ## Scripts and aliases -/

/-- R44: a line of an operation that runs has one operand for each port of the "reads" column, and is one
transaction of a request with the operation's code and, on each port it reads, the value of the operand in
the same place; on OK it binds its destinations to the driven ports in their order, and a line whose
operation raises binds nothing. On the lines of R44's format this is R44's. That no other line runs, so that
the count of operands is that of the ports read and, on OK, the count of destinations that of the ports
driven, is THE MODEL'S CHOICE and no rule of the spec: log entry 6 (DESIGN CHOICE), as are the operand kinds
and widths that `operandBits` takes and what a destination that stands twice means. -/
def Obligations.ScriptLineIsOneTransaction : Prop :=
  ∀ (h h' : HostState) (l : Line) (o : Op), l.head = .op o → runLine h l = .ok h' →
    l.operands.length = o.reads.length ∧
    (∃ req : Request, req.op = o.code ∧ h.machine.transact req = .next h'.machine ∧
      ∀ (j : ℕ) (p : InPort) (x : Operand), o.reads[j]? = some p → l.operands[j]? = some x →
        operandBits h.env p x = .ok (req.portBits p)) ∧
    (h'.machine.out.st = some .ok → l.dests.length = o.drives.length ∧
      h'.env = (l.dests.zip (o.drives.filterMap h'.machine.out.value)).reverse ++ h.env) ∧
    (h'.machine.out.st ≠ some .ok → h'.env = h.env)

/-- R45: every alias expands as its row says. That FROMBYTES takes its bytes as integers is THE MODEL'S CHOICE
(log entry 6, DESIGN CHOICE): R45 names the bytes and R44 gives no byte literal. -/
def Obligations.AliasesExpand : Prop :=
  (∀ (h : HostState) (v : VarName) (b0 b1 b2 b3 : Byte),
    runLine h ⟨[v], .short .fromBytes,
      [.int b0.toNat, .int b1.toNat, .int b2.toNat, .int b3.toNat], none⟩ =
    .ok ⟨(v, ⟨32, BitVec.ofNat 32
      (b0.toNat * 2 ^ 24 + b1.toNat * 2 ^ 16 + b2.toNat * 2 ^ 8 + b3.toNat)⟩) :: h.env,
      h.machine⟩) ∧
  (∀ (h : HostState) (v0 v1 v2 v3 : VarName) (w : IbmWord),
    runLine h ⟨[v0, v1, v2, v3], .short .toBytes, [.word w], none⟩ =
    .ok ⟨(v3, ⟨8, BitVec.ofNat 8 w.toNat⟩) :: (v2, ⟨8, BitVec.ofNat 8 (w.toNat / 2 ^ 8)⟩) ::
      (v1, ⟨8, BitVec.ofNat 8 (w.toNat / 2 ^ 16)⟩) ::
      (v0, ⟨8, BitVec.ofNat 8 (w.toNat / 2 ^ 24)⟩) :: h.env, h.machine⟩) ∧
  (∀ (h : HostState) (ds : List VarName) (os : List Operand) (st : Option Status),
    runLine h ⟨ds, .short .fromFloat, os, st⟩ = runLine h ⟨ds, .op .ieee2ibm, os, st⟩ ∧
    runLine h ⟨ds, .short .encode, os, st⟩ = runLine h ⟨ds, .op .ieee2ibm, os, st⟩ ∧
    runLine h ⟨ds, .short .toFloat, os, st⟩ = runLine h ⟨ds, .op .ibm2ieee, os, st⟩ ∧
    runLine h ⟨ds, .short .decode, os, st⟩ = runLine h ⟨ds, .op .ibm2ieee, os, st⟩) ∧
  ∀ (h : HostState) (v : VarName) (w : IbmWord), ∃ t u,
    runLine h ⟨[v], .short .signBit, [.word w], none⟩ = .ok ⟨(v, ⟨1, BitVec.ofNat 1 (fieldS w)⟩) :: h.env, t⟩ ∧
    runLine h ⟨[v], .short .exponent, [.word w], none⟩ =
      .ok ⟨(v, ⟨7, BitVec.ofNat 7 (fieldE w)⟩) :: h.env, t⟩ ∧
    runLine h ⟨[v], .short .mantissa, [.word w], none⟩ =
      .ok ⟨(v, ⟨24, BitVec.ofNat 24 (fieldM w)⟩) :: h.env, t⟩ ∧
    runLine h ⟨[v], .short .isNorm, [.word w], none⟩ =
      .ok ⟨(v, ⟨1, if fieldM w = 0 ∨ 2 ^ 20 ≤ fieldM w then 1#1 else 0#1⟩) :: h.env, u⟩
end

