-- ==== Sys2Proof/Laws/Datapaths.lean ====
section
/-! SUPPORT. For each shared datapath, everything it can answer, said once. -/

namespace Sys2Proof.Machine

/-- ENC, its outcome by cases (R48). -/
theorem enc_cases (s : BitVec 1) (sig : Nat) (x : Int) :
    ((252 ≤ x ∨ x = 251 ∧ (2 ^ 24 - 1) * 2 ^ 29 < sig) ∧ enc s sig x = .error .overflow) ∨
    (x ≤ -281 ∧ enc s sig x = .error .underflow) ∨
    (-260 ≤ x ∧ x ≤ 251 ∧ ¬(x = 251 ∧ (2 ^ 24 - 1) * 2 ^ 29 < sig) ∧
      enc s sig x = .ok (packNat s (x / 4 + 65).toNat (sig >>> (32 - x % 4).toNat))) ∨
    (-280 ≤ x ∧ x ≤ -261 ∧ enc s sig x = .ok (packNat s 0 (sig >>> (-228 - x).toNat))) := by
  unfold enc
  split
  · rename_i h
    exact .inl ⟨.inl h, rfl⟩
  · split
    · rename_i h
      exact .inl ⟨.inr h, rfl⟩
    · split
      · rename_i h
        exact .inr (.inl ⟨h, rfl⟩)
      · rename_i h1 h2 h3
        split
        · rename_i h4
          refine .inr (.inr (.inl ⟨h4, by omega, h2, ?_⟩))
          rw [Int.add_assoc]; rfl
        · exact .inr (.inr (.inr ⟨by omega, by omega, rfl⟩))

/-- Re-encoding, its outcome by cases (R64 step 4). -/
theorem reencode_cases (s : BitVec 1) (e mag : Nat) :
    (2 ^ 24 ≤ mag ∧ 127 ≤ e ∧ reencode s e mag = .error .overflow) ∨
    (2 ^ 24 ≤ mag ∧ e < 127 ∧ reencode s e mag = .ok (packNat s (e + 1) (mag >>> 4))) ∨
    (mag < 2 ^ 24 ∧ reencode s e mag =
      .ok (packNat s (e - min (lzd mag) e) (mag <<< (4 * min (lzd mag) e)))) := by
  unfold reencode
  split
  · rename_i h
    split
    · exact .inl ⟨h, by omega, rfl⟩
    · exact .inr (.inl ⟨h, by omega, rfl⟩)
  · exact .inr (.inr ⟨by omega, rfl⟩)

/-- ADDCORE answers the canonical zero for a zero sum and re-encodes any other (R64). -/
theorem addCore_cases (sa : BitVec 1) (ea ma : Nat) (sb : BitVec 1) (eb mb : Nat) :
    ∃ sum : Int,
      sum = signedMag sa (ma >>> (4 * (max ea eb - ea))) + signedMag sb (mb >>> (4 * (max ea eb - eb))) ∧
      ((sum = 0 ∧ addCore sa ea ma sb eb mb = .ok canonicalZero) ∨
       (sum ≠ 0 ∧ addCore sa ea ma sb eb mb =
          reencode (BitVec.ofBool (decide (sum < 0))) (max ea eb) sum.natAbs)) := by
  refine ⟨_, rfl, ?_⟩
  unfold addCore
  dsimp only
  split
  · rename_i h
    exact .inl ⟨h, rfl⟩
  · rename_i h
    exact .inr ⟨h, rfl⟩

/-- INTPARTS by the three ranges of the exponent field (R73). -/
theorem intParts_cases (a : IbmWord) :
    (70 ≤ (expf a).toNat ∧
      intParts a = ⟨sign a, (mant a).toNat <<< (4 * ((expf a).toNat - 70)), false⟩) ∨
    ((expf a).toNat ≤ 64 ∧ intParts a = ⟨sign a, 0, decide ((mant a).toNat ≠ 0)⟩) ∨
    (65 ≤ (expf a).toNat ∧ (expf a).toNat ≤ 69 ∧
      intParts a = ⟨sign a, (mant a).toNat >>> (4 * (70 - (expf a).toNat)),
        decide ((mant a).toNat % 2 ^ (4 * (70 - (expf a).toNat)) ≠ 0)⟩) := by
  unfold intParts
  dsimp only
  split
  · refine .inl ⟨by omega, ?_⟩
    rw [show (4 * ((expf a).toNat : Int) - 280).toNat = 4 * ((expf a).toNat - 70) by omega]
  · split
    · exact .inr (.inl ⟨by omega, rfl⟩)
    · refine .inr (.inr ⟨by omega, by omega, ?_⟩)
      rw [show (-(4 * ((expf a).toNat : Int) - 280)).toNat = 4 * (70 - (expf a).toNat) by omega]

/-- One turn of NORMALIZE's loop (R58). -/
theorem normalizeLoop_turn (s : BitVec 1) (turns e : Nat) (m : BitVec 24) :
    (topDigit m ≠ 0#4 ∧ normalizeLoop s (turns + 1) e m = .ok (packNat s e m.toNat)) ∨
    (topDigit m = 0#4 ∧ e = 0 ∧ normalizeLoop s (turns + 1) e m = .error .underflow) ∨
    (topDigit m = 0#4 ∧ e ≠ 0 ∧
      normalizeLoop s (turns + 1) e m = normalizeLoop s turns (e - 1) (m <<< 4)) := by
  rw [normalizeLoop]
  by_cases h : topDigit m = 0#4
  · by_cases he : e = 0
    · exact .inr (.inl ⟨h, he, by simp [h, he]⟩)
    · exact .inr (.inr ⟨h, he, by simp [h, he]⟩)
  · exact .inl ⟨h, by simp [h]⟩

/-- NORMALIZE raises nothing but Underflow (R58). -/
theorem normalizeLoop_error (s : BitVec 1) (turns : Nat) :
    ∀ (e : Nat) (m : BitVec 24) (k : ErrorKind),
      normalizeLoop s turns e m = .error k → k = .underflow := by
  induction turns with
  | zero => intro e m k h; cases h
  | succ n ih =>
    intro e m k h
    rcases normalizeLoop_turn s n e m with ⟨_, h'⟩ | ⟨_, _, h'⟩ | ⟨_, _, h'⟩
    · rw [h'] at h; cases h
    · rw [h'] at h; cases h; rfl
    · exact ih _ _ _ (h' ▸ h)

end Sys2Proof.Machine
end

