-- ==== Sys2Proof/Laws/Decode.lean ====
section
/-! SUPPORT. What the decoder can answer, said once. -/

namespace Sys2Proof

/-- The code of an operation is the operation's. -/
@[simp] theorem Op.ofCode_code (o : Op) : Op.ofCode o.code = some o := by cases o <;> rfl

/-- A code that has an operation is that operation's code. -/
theorem Op.code_of_ofCode {c : OpCode} {o : Op} (h : Op.ofCode c = some o) : o.code = c := by
  revert c; cases o <;> decide

/-- A code has no operation exactly when it is reserved (R41). -/
theorem Op.ofCode_eq_none_iff (c : OpCode) : Op.ofCode c = none ↔ 0x12 ≤ c.toNat := by
  revert c; decide

/-- A request decodes to an instruction exactly when its code is an operation's and the instruction takes
that operation's ports. -/
theorem decode_eq_ok_iff (req : Request) (i : Instr) :
    decode req = .ok i ↔ ∃ o : Op, o.code = req.op ∧ i = o.instr req := by
  unfold decode
  constructor
  · intro h
    split at h
    · rename_i o ho
      exact ⟨o, Op.code_of_ofCode ho, by simpa using h.symm⟩
    · cases h
  · rintro ⟨o, ho, rfl⟩
    simp [← ho]

/-- A request is rejected exactly when its code is reserved, by that name. -/
theorem decode_eq_error_iff (req : Request) (e : DecodeReject) :
    decode req = .error e ↔ 0x12 ≤ req.op.toNat ∧ e = .reservedCode req.op := by
  rw [← Op.ofCode_eq_none_iff]
  unfold decode
  split <;> rename_i h <;> simp [h, eq_comm]

/-- The instruction taken from a request is the operation's. -/
@[simp] theorem Op.instr_op (o : Op) (req : Request) : (o.instr req).op = o := by cases o <;> rfl

/-- Encoding puts the operation's code on `op`. -/
@[simp] theorem encodeOnto_op (bg : Request) (i : Instr) : (encodeOnto bg i).op = i.op.code := by
  cases i <;> rfl

end Sys2Proof
end

