-- ==== Sys2Proof/Laws/Fields.lean ====
section
/-! SUPPORT. The bit fields as numbers: each slice of a word or a double is the quotient and remainder of
Sys2Proof/Safety.lean, and packing is the sum. -/

namespace Sys2Proof.Machine

theorem sign_toNat (w : IbmWord) : (sign w).toNat = fieldS w := by
  have := w.isLt
  simp only [sign, fieldS, BitVec.extractLsb'_toNat, Nat.shiftRight_eq_div_pow]
  omega

theorem expf_toNat (w : IbmWord) : (expf w).toNat = fieldE w := by
  simp only [expf, fieldE, BitVec.extractLsb'_toNat, Nat.shiftRight_eq_div_pow]

theorem mant_toNat (w : IbmWord) : (mant w).toNat = fieldM w := by
  simp [mant, fieldM, BitVec.extractLsb'_toNat]

theorem dblSign_toNat (d : Double64) : (dblSign d).toNat = doubleS d := by
  have := d.isLt
  simp only [dblSign, doubleS, BitVec.extractLsb'_toNat, Nat.shiftRight_eq_div_pow]
  omega

theorem dblExp_toNat (d : Double64) : (dblExp d).toNat = doubleE d := by
  simp only [dblExp, doubleE, BitVec.extractLsb'_toNat, Nat.shiftRight_eq_div_pow]

theorem dblFrac_toNat (d : Double64) : (dblFrac d).toNat = doubleF d := by
  simp [dblFrac, doubleF, BitVec.extractLsb'_toNat]

theorem fieldS_lt (w : IbmWord) : fieldS w < 2 := by have := w.isLt; unfold fieldS; omega
theorem fieldE_lt (w : IbmWord) : fieldE w < 2 ^ 7 := Nat.mod_lt _ (by decide)
theorem fieldM_lt (w : IbmWord) : fieldM w < 2 ^ 24 := Nat.mod_lt _ (by decide)

/-- A word is the word of its fields. -/
theorem wordOf_fields (w : IbmWord) : wordOf (fieldS w) (fieldE w) (fieldM w) = w := by
  have := w.isLt
  apply BitVec.eq_of_toNat_eq
  simp only [wordOf, fieldS, fieldE, fieldM, BitVec.toNat_ofNat]
  omega

theorem fieldS_wordOf {s e m : Nat} (hs : s < 2) (he : e < 2 ^ 7) (hm : m < 2 ^ 24) :
    fieldS (wordOf s e m) = s := by
  simp only [wordOf, fieldS, BitVec.toNat_ofNat]; omega

theorem fieldE_wordOf {s e m : Nat} (he : e < 2 ^ 7) (hm : m < 2 ^ 24) :
    fieldE (wordOf s e m) = e := by
  simp only [wordOf, fieldE, BitVec.toNat_ofNat]; omega

theorem fieldM_wordOf {s e m : Nat} (hm : m < 2 ^ 24) :
    fieldM (wordOf s e m) = m := by
  simp only [wordOf, fieldM, BitVec.toNat_ofNat]; omega

/-- Packing is the word of the fields. -/
theorem pack_eq_wordOf (s : BitVec 1) (e : BitVec 7) (m : BitVec 24) :
    pack s e m = wordOf s.toNat e.toNat m.toNat := by
  have hs := s.isLt
  have he := e.isLt
  have hm := m.isLt
  apply BitVec.eq_of_toNat_eq
  simp only [pack, wordOf, BitVec.toNat_append, BitVec.toNat_ofNat]
  rw [← Nat.shiftLeft_add_eq_or_of_lt (by omega), ← Nat.shiftLeft_add_eq_or_of_lt (by omega)]
  simp only [Nat.shiftLeft_eq]
  omega

/-- Packing integers within their bounds is the word of the fields. -/
theorem packNat_eq_wordOf (s : BitVec 1) {e m : Nat} (he : e < 2 ^ 7) (hm : m < 2 ^ 24) :
    packNat s e m = wordOf s.toNat e m := by
  rw [packNat, pack_eq_wordOf, BitVec.toNat_ofNat, BitVec.toNat_ofNat, Nat.mod_eq_of_lt he,
    Nat.mod_eq_of_lt hm]

/-- Packing a double is the double of the fields. -/
theorem packDouble_eq_doubleOf (s : BitVec 1) (e : BitVec 11) (f : BitVec 52) :
    packDouble s e f = doubleOf s.toNat e.toNat f.toNat := by
  have hs := s.isLt
  have he := e.isLt
  have hf := f.isLt
  apply BitVec.eq_of_toNat_eq
  simp only [packDouble, doubleOf, BitVec.toNat_append, BitVec.toNat_ofNat]
  rw [← Nat.shiftLeft_add_eq_or_of_lt (by omega), ← Nat.shiftLeft_add_eq_or_of_lt (by omega)]
  simp only [Nat.shiftLeft_eq]
  omega

/-- The top hex digit is zero exactly below `2^20`. -/
theorem topDigit_eq_zero_iff (m : BitVec 24) : topDigit m = 0#4 ↔ m.toNat < 2 ^ 20 := by
  have := m.isLt
  rw [← BitVec.toNat_inj]
  simp only [topDigit, BitVec.extractLsb'_toNat, Nat.shiftRight_eq_div_pow, BitVec.toNat_ofNat]
  omega

/-- `msb` is the index of the leading 1 bit (R8). -/
theorem msb_spec {m : Nat} (h : m ≠ 0) : 2 ^ msb m ≤ m ∧ m < 2 ^ (msb m + 1) :=
  ⟨Nat.log2_self_le h, Nat.lt_log2_self⟩

/-- A 24-bit mantissa's leading 1 bit is at index 23 or below. -/
theorem msb_le {m : Nat} (h : m ≠ 0) (hm : m < 2 ^ 24) : msb m ≤ 23 := by
  have := (Nat.log2_lt h (k := 24)).2 hm
  unfold msb; omega

/-- `lzd` digits to the left bring the leading digit up and lose nothing (R8). -/
theorem lzd_spec {m : Nat} (h : m ≠ 0) (hm : m < 2 ^ 24) :
    lzd m ≤ 5 ∧ 2 ^ 20 ≤ m * 16 ^ lzd m ∧ m * 16 ^ lzd m < 2 ^ 24 := by
  obtain ⟨lo, hi⟩ := msb_spec h
  have hle := msb_le h hm
  unfold lzd
  generalize msb m = p at *
  interval_cases p <;> norm_num at * <;> omega

/-- The left-aligned fraction: the mantissa moved so that its leading 1 is bit 52, and that bit dropped
(R46, R71). -/
theorem alignedFraction_toNat {m : Nat} (h : m ≠ 0) (hm : m < 2 ^ 24) :
    (alignedFraction m).toNat = m * 2 ^ (52 - msb m) - 2 ^ 52 ∧ 2 ^ 52 ≤ m * 2 ^ (52 - msb m) ∧
      m * 2 ^ (52 - msb m) < 2 ^ 53 := by
  obtain ⟨lo, hi⟩ := msb_spec h
  have hle := msb_le h hm
  have hlo : 2 ^ 52 ≤ m * 2 ^ (52 - msb m) := by
    calc 2 ^ 52 = 2 ^ msb m * 2 ^ (52 - msb m) := by rw [← pow_add]; congr 1; omega
      _ ≤ _ := Nat.mul_le_mul_right _ lo
  have hhi : m * 2 ^ (52 - msb m) < 2 ^ 53 := by
    calc m * 2 ^ (52 - msb m) < 2 ^ (msb m + 1) * 2 ^ (52 - msb m) :=
          Nat.mul_lt_mul_of_pos_right hi (by positivity)
      _ = 2 ^ 53 := by rw [← pow_add]; congr 1; omega
  refine ⟨?_, hlo, hhi⟩
  rw [alignedFraction, BitVec.toNat_ofNat, Nat.shiftLeft_eq]
  omega

end Sys2Proof.Machine
end

