-- ==== Sys2Proof/Laws/PerInstr.lean ====
section
/-! SUPPORT. Statements for all instructions, one lemma per instruction. -/

namespace Sys2Proof.Laws

/-- The encoding carries the operation's own code, and is well-formed as a request, as the instruction is
(R39, R41). -/
def EncodingWellFormed.Statement (i : Instr) : Prop :=
  (encode i).op = i.op.code ∧ (encode i).wellFormed = true ∧ i.wellFormed = true

theorem EncodingWellFormed.ibm2ieee (a : IbmWord) : EncodingWellFormed.Statement (.ibm2ieee a) :=
  ⟨rfl, rfl, rfl⟩
theorem EncodingWellFormed.ieee2ibm (d : Double64) : EncodingWellFormed.Statement (.ieee2ibm d) :=
  ⟨rfl, rfl, rfl⟩
theorem EncodingWellFormed.decomp (a : IbmWord) : EncodingWellFormed.Statement (.decomp a) :=
  ⟨rfl, rfl, rfl⟩
theorem EncodingWellFormed.compose (cs : BitVec 1) (ce : BitVec 7) (cm : BitVec 24) :
    EncodingWellFormed.Statement (.compose cs ce cm) := ⟨rfl, rfl, rfl⟩
theorem EncodingWellFormed.isZero (a : IbmWord) : EncodingWellFormed.Statement (.isZero a) :=
  ⟨rfl, rfl, rfl⟩
theorem EncodingWellFormed.isSubn (a : IbmWord) : EncodingWellFormed.Statement (.isSubn a) :=
  ⟨rfl, rfl, rfl⟩
theorem EncodingWellFormed.toBool (a : IbmWord) : EncodingWellFormed.Statement (.toBool a) :=
  ⟨rfl, rfl, rfl⟩
theorem EncodingWellFormed.normalize (a : IbmWord) : EncodingWellFormed.Statement (.normalize a) :=
  ⟨rfl, rfl, rfl⟩
theorem EncodingWellFormed.zeroSubn (a : IbmWord) : EncodingWellFormed.Statement (.zeroSubn a) :=
  ⟨rfl, rfl, rfl⟩
theorem EncodingWellFormed.abs (a : IbmWord) : EncodingWellFormed.Statement (.abs a) :=
  ⟨rfl, rfl, rfl⟩
theorem EncodingWellFormed.neg (a : IbmWord) : EncodingWellFormed.Statement (.neg a) :=
  ⟨rfl, rfl, rfl⟩
theorem EncodingWellFormed.add (a b : IbmWord) : EncodingWellFormed.Statement (.add a b) :=
  ⟨rfl, rfl, rfl⟩
theorem EncodingWellFormed.sub (a b : IbmWord) : EncodingWellFormed.Statement (.sub a b) :=
  ⟨rfl, rfl, rfl⟩
theorem EncodingWellFormed.ldexp (d : Double64) (n : ExpWord) :
    EncodingWellFormed.Statement (.ldexp d n) := ⟨rfl, rfl, rfl⟩
theorem EncodingWellFormed.frexp (a : IbmWord) : EncodingWellFormed.Statement (.frexp a) :=
  ⟨rfl, rfl, rfl⟩
theorem EncodingWellFormed.trunc (a : IbmWord) : EncodingWellFormed.Statement (.trunc a) :=
  ⟨rfl, rfl, rfl⟩
theorem EncodingWellFormed.ceil (a : IbmWord) : EncodingWellFormed.Statement (.ceil a) :=
  ⟨rfl, rfl, rfl⟩
theorem EncodingWellFormed.floor (a : IbmWord) : EncodingWellFormed.Statement (.floor a) :=
  ⟨rfl, rfl, rfl⟩

end Sys2Proof.Laws
end

