-- ==== Sys2Proof/Laws/Script.lean ====
section
/-! SUPPORT. What assembling a line's request and binding its results can do, said once. -/

namespace Sys2Proof.Machine

/-- Putting an operand on a port leaves the code. -/
@[simp] theorem Request_set_op (req : Request) (p : InPort) (v : Nat) : (req.set p v).op = req.op := by
  cases p <;> rfl

/-- Assembling operands leaves the code, and takes one operand for each port. -/
theorem assemble_ok {env : Bindings} {ps : List InPort} {os : List Operand} {req req' : Request}
    (h : assemble env ps os req = .ok req') : req'.op = req.op ∧ os.length = ps.length := by
  induction ps generalizing os req with
  | nil => cases os <;> simp_all [assemble]
  | cons p ps ih =>
    cases os with
    | nil => simp [assemble] at h
    | cons o os =>
      simp only [assemble] at h
      split at h
      · obtain ⟨hop, hlen⟩ := ih h
        exact ⟨by simpa using hop, by simp [hlen]⟩
      · cases h

/-- Putting bits on a port: that port then has them, and every other port what it had. -/
theorem Request_portBits_set (req : Request) (p q : InPort) (v : Nat) :
    (req.set p v).portBits q = if p = q then v % 2 ^ p.width else req.portBits q := by
  cases p <;> cases q <;> simp [Request.set, Request.portBits, InPort.width]

/-- A name gives no more bits than are asked for. -/
theorem nameBits_lt {env : Bindings} {width v n : Nat} (h : nameBits env width v = .ok n) :
    n < 2 ^ width := by
  unfold nameBits at h
  split at h
  · cases h
  · rename_i x _
    split at h
    · rename_i hw
      cases h
      exact hw ▸ x.bits.isLt
    · cases h

/-- An operand gives no more bits than its port has. -/
theorem operandBits_lt {env : Bindings} {p : InPort} {x : Operand} {n : Nat}
    (h : operandBits env p x = .ok n) : n < 2 ^ p.width := by
  cases x with
  | name v => exact nameBits_lt h
  | word w =>
    simp only [operandBits] at h
    split at h
    · rename_i hp
      cases h
      rcases hp with rfl | rfl <;> exact w.isLt
    · cases h
  | double d =>
    simp only [operandBits] at h
    split at h
    · rename_i hp
      cases h
      subst hp
      exact d.isLt
    · cases h
  | int i =>
    simp only [operandBits, intLiteral] at h
    cases p <;> dsimp only at h <;> try cases h
    all_goals
      split at h
      · cases h
        first
          | exact BitVec.isLt _
          | (simp only [InPort.width] at *; omega)
      · cases h

/-- A port that is not among those assembled keeps what it had. -/
theorem assemble_other {env : Bindings} {ps : List InPort} {os : List Operand} {req req' : Request}
    (h : assemble env ps os req = .ok req') {q : InPort} (hq : q ∉ ps) :
    req'.portBits q = req.portBits q := by
  induction ps generalizing os req with
  | nil => cases os <;> simp_all [assemble]
  | cons p ps ih =>
    cases os with
    | nil => simp [assemble] at h
    | cons o os =>
      simp only [assemble] at h
      split at h
      · rw [ih h (fun hm => hq (.tail _ hm)), Request_portBits_set,
          if_neg (by rintro rfl; exact hq (List.mem_cons_self ..))]
      · cases h

/-- Each port assembled has the bits of the operand in its place. -/
theorem assemble_places {env : Bindings} {ps : List InPort} {os : List Operand} {req req' : Request}
    (hps : ps.Nodup) (h : assemble env ps os req = .ok req') {j : Nat} {p : InPort} {x : Operand}
    (hp : ps[j]? = some p) (hx : os[j]? = some x) :
    operandBits env p x = .ok (req'.portBits p) := by
  induction ps generalizing os req j with
  | nil => simp at hp
  | cons p' ps ih =>
    cases os with
    | nil => simp at hx
    | cons o os =>
      simp only [assemble] at h
      split at h
      · rename_i v hv
        obtain ⟨hnot, hrest⟩ := List.nodup_cons.1 hps
        cases j with
        | zero =>
          simp only [List.getElem?_cons_zero, Option.some.injEq] at hp hx
          subst hp; subst hx
          rw [assemble_other h hnot, Request_portBits_set, if_pos rfl,
            Nat.mod_eq_of_lt (operandBits_lt hv), hv]
        | succ j => exact ih hrest h (by simpa using hp) (by simpa using hx)
      · cases h

/-- Binding succeeds one for one, the last destination in front. -/
theorem bindAll_ok {vs : List VarName} {xs : List PortValue} {env env' : Bindings}
    (h : bindAll vs xs env = .ok env') :
    vs.length = xs.length ∧ env' = (vs.zip xs).reverse ++ env := by
  induction vs generalizing xs env with
  | nil => cases xs <;> simp_all [bindAll]
  | cons v vs ih =>
    cases xs with
    | nil => simp [bindAll] at h
    | cons x xs =>
      obtain ⟨hlen, henv⟩ := ih h
      simp [hlen, henv]

end Sys2Proof.Machine
end

