-- ==== Sys2Proof/Laws/State.lean ====
section
/-! SUPPORT. One lemma per field per update of the state, and what each drive puts on the ports: later
proofs unfold no record update. -/

namespace Sys2Proof.Machine

@[simp] theorem State.present_inp (s : State) (req : Request) : (s.present req).inp = req := rfl
/-- The model's choice, no rule of the spec (log entry 8). -/
@[simp] theorem State.present_out (s : State) (req : Request) : (s.present req).out = s.out := rfl
@[simp] theorem State.present_draws (s : State) (req : Request) :
    (s.present req).draws = s.draws := rfl

@[simp] theorem State.complete_inp (s : State) (o : OutPorts) : (s.complete o).inp = s.inp := rfl
@[simp] theorem State.complete_out (s : State) (o : OutPorts) :
    (s.complete o).out = { o with st := some .ok } := rfl
@[simp] theorem State.complete_draws (s : State) (o : OutPorts) :
    (s.complete o).draws = s.draws + 1 := rfl

@[simp] theorem State.raise_inp (s : State) (k : ErrorKind) : (s.raise k).inp = s.inp := rfl
@[simp] theorem State.raise_out (s : State) (k : ErrorKind) :
    (s.raise k).out = { OutPorts.undriven with st := some k.status } := rfl
@[simp] theorem State.raise_draws (s : State) (k : ErrorKind) : (s.raise k).draws = s.draws + 1 := rfl

@[simp] theorem State.conclude_ok {α : Type} (s : State) (f : α → OutPorts) (v : α) :
    s.conclude f (.ok v) = s.complete (f v) := rfl
@[simp] theorem State.conclude_error {α : Type} (s : State) (f : α → OutPorts) (k : ErrorKind) :
    s.conclude f (.error k) = s.raise k := rfl

@[simp] theorem State.withFetchWord_inp (s : State) (nbits w : Nat) :
    (s.withFetchWord nbits w).inp = tableRequest nbits w := rfl
/-- The model's choice, no rule of the spec (log entry 8). -/
@[simp] theorem State.withFetchWord_out (s : State) (nbits w : Nat) :
    (s.withFetchWord nbits w).out = s.out := rfl
@[simp] theorem State.withFetchWord_draws (s : State) (nbits w : Nat) :
    (s.withFetchWord nbits w).draws = s.draws := rfl

@[simp] theorem State.reset_out : State.reset.out = OutPorts.undriven := rfl
@[simp] theorem State.reset_draws : State.reset.draws = 0 := rfl

/-- Concluding leaves the inputs and takes one draw, whatever the outcome. -/
theorem State.conclude_frame {α : Type} (s : State) (f : α → OutPorts) (res : Except ErrorKind α) :
    (s.conclude f res).inp = s.inp ∧ (s.conclude f res).draws = s.draws + 1 := by
  cases res <;> exact ⟨rfl, rfl⟩

/-- Concluding completes with the value's drive or raises the error: nothing else. -/
theorem State.conclude_cases {α : Type} (s : State) (f : α → OutPorts) (res : Except ErrorKind α) :
    (∃ v, res = .ok v ∧ s.conclude f res = s.complete (f v)) ∨
      ∃ k, res = .error k ∧ s.conclude f res = s.raise k := by
  cases res with
  | ok v => exact .inl ⟨v, rfl, rfl⟩
  | error k => exact .inr ⟨k, rfl, rfl⟩

end Sys2Proof.Machine
end

