-- ==== Sys2Proof/Laws/Step.lean ====
section
/-! SUPPORT. What an instruction and a step can do, said once. -/

namespace Sys2Proof.Machine

/-- An instruction's outcome does not depend on the state: there is one error union that every state's
outputs are concluded with. -/
theorem exec_concludes (i : Instr) :
    ∃ res : Except ErrorKind OutPorts, ∀ s, exec i s = .next (s.conclude id res) := by
  have lift : ∀ (res : Except ErrorKind IbmWord) (s : State),
      s.conclude driveR res = s.conclude id (res.map driveR) := by
    intro res s; cases res <;> rfl
  cases i with
  | ieee2ibm d => exact ⟨(ieee2ibm d).map driveR, fun s => congrArg _ (lift _ s)⟩
  | normalize a => exact ⟨(normalizeWord a).map driveR, fun s => congrArg _ (lift _ s)⟩
  | add a b => exact ⟨(addWords a b).map driveR, fun s => congrArg _ (lift _ s)⟩
  | sub a b => exact ⟨(subWords a b).map driveR, fun s => congrArg _ (lift _ s)⟩
  | ldexp d n => exact ⟨(ldexpWord d n).map driveR, fun s => congrArg _ (lift _ s)⟩
  | _ => exact ⟨.ok _, fun _ => rfl⟩

/-- The frame of every instruction: the inputs stay as presented, one draw is taken. -/
theorem exec_frame {i : Instr} {s t : State} (h : exec i s = .next t) :
    t.inp = s.inp ∧ t.draws = s.draws + 1 := by
  obtain ⟨res, hres⟩ := exec_concludes i
  rw [hres] at h
  cases h
  exact State.conclude_frame s id res

/-- A step that answers a next state ran the decoded instruction. -/
theorem step_eq_next {s t : State} (h : step s = .next t) :
    ∃ i, decode s.inp = .ok i ∧ exec i s = .next t := by
  unfold step at h
  split at h
  · rename_i i hi
    exact ⟨i, hi, h⟩
  · cases h

/-- A step never faults, and refuses only a request the decoder rejects. -/
theorem step_cases (s : State) :
    (∃ i t, decode s.inp = .ok i ∧ exec i s = .next t ∧ step s = .next t) ∨
      ∃ e, decode s.inp = .error e ∧ step s = .refused (refuse e) := by
  unfold step
  cases h : decode s.inp with
  | ok i =>
    obtain ⟨res, hres⟩ := exec_concludes i
    exact .inl ⟨i, _, rfl, hres s, hres s⟩
  | error e => exact .inr ⟨e, rfl, rfl⟩

end Sys2Proof.Machine
end

