-- ==== Sys2Proof/Tests/Slice0.lean ====
section
/-! SUPPORT. The model's own tests: one request of each operation written out from its encoding
(30_encoding.md R38, R39), an ill-formed term for each check of WellFormed, results from the worked
examples and tables of the spec (each test names its source), and a witness for every statement that has
hypotheses. -/

namespace Sys2Proof.Tests

open Sys2Proof.Machine

/-- A bundle with a code, and words told apart on every operand port. -/
def req (op : OpCode) : Request :=
  { op := op, a := 0x41100000#32, b := 0x40199999#32, d := 0x3FE8000000000000#64, n := 0x0003#16,
    cs := 1#1, ce := 66#7, cm := 0x76A000#24 }

/-- The state with a bundle presented right after reset. -/
def presented (r : Request) : State := State.reset.present r

/-- The output bundle of an instruction run right after reset. -/
def outputs (i : Instr) : Option OutPorts :=
  match exec i State.reset with
  | .next t => some t.out
  | .fault _ => none
  | .refused _ => none

/-- The output bundle of a completed transaction that drives one double. -/
def okQ (q : Double64) : Option OutPorts := some { OutPorts.undriven with st := some .ok, q := some q }

/-- The output bundle of a completed transaction that drives the predicate. -/
def okP (p : BitVec 1) : Option OutPorts := some { OutPorts.undriven with st := some .ok, p := some p }

/-- The output bundle of a completed transaction that drives the integer. -/
def okZ (z : Int) : Option OutPorts :=
  some { OutPorts.undriven with st := some .ok, z := some (BitVec.ofInt 256 z) }

/-- The output bundle of a completed transaction that drives one word. -/
def okR (r : IbmWord) : Option OutPorts := some (completesWith r)

/-- The output bundle of a transaction that raises. -/
def bad (k : ErrorKind) : Option OutPorts := some (raisesKind k)

/-! ## Decoding: op[4:0] as R39 writes it in binary, the operands from their own ports -/

theorem test_decode_codec :
    decode (req 0b00000#5) = .ok (.ibm2ieee 0x41100000#32) ∧
    decode (req 0b00001#5) = .ok (.ieee2ibm 0x3FE8000000000000#64) := by decide

theorem test_decode_decomposer :
    decode (req 0b00010#5) = .ok (.decomp 0x41100000#32) ∧
    decode (req 0b00011#5) = .ok (.compose 1#1 66#7 0x76A000#24) ∧
    decode (req 0b00100#5) = .ok (.isZero 0x41100000#32) ∧
    decode (req 0b00101#5) = .ok (.isSubn 0x41100000#32) ∧
    decode (req 0b00110#5) = .ok (.toBool 0x41100000#32) := by decide

theorem test_decode_normalizer_and_sign :
    decode (req 0b00111#5) = .ok (.normalize 0x41100000#32) ∧
    decode (req 0b01000#5) = .ok (.zeroSubn 0x41100000#32) ∧
    decode (req 0b01001#5) = .ok (.abs 0x41100000#32) ∧
    decode (req 0b01010#5) = .ok (.neg 0x41100000#32) := by decide

theorem test_decode_addsub_and_ldexp :
    decode (req 0b01011#5) = .ok (.add 0x41100000#32 0x40199999#32) ∧
    decode (req 0b01100#5) = .ok (.sub 0x41100000#32 0x40199999#32) ∧
    decode (req 0b01101#5) = .ok (.ldexp 0x3FE8000000000000#64 0x0003#16) ∧
    decode (req 0b01110#5) = .ok (.frexp 0x41100000#32) := by decide

theorem test_decode_integer :
    decode (req 0b01111#5) = .ok (.trunc 0x41100000#32) ∧
    decode (req 0b10000#5) = .ok (.ceil 0x41100000#32) ∧
    decode (req 0b10001#5) = .ok (.floor 0x41100000#32) := by decide

/-- Every code from `0x12` to `0x1F` is rejected by name (R41). -/
theorem test_decode_reserved : ∀ c : OpCode, 0x12 ≤ c.toNat →
    decode (req c) = .error (.reservedCode c) := by decide

/-- The bits that fill a table row's byte are no part of the 5-bit code (mask 0x1F, R39). -/
theorem test_decodeTableWord_mask :
    decodeTableWord 8 0b11101011 = some (.add 0#32 0#32) ∧ decodeTableWord 8 0b00011111 = none := by
  decide

/-- Encoding puts the operands on the ports the operation reads, over the background's others (R44). -/
theorem test_encode_add : encodeOnto (req 0#5) (.add 1#32 2#32) =
    { op := 0b01011#5, a := 1#32, b := 2#32, d := 0x3FE8000000000000#64, n := 0x0003#16, cs := 1#1,
      ce := 66#7, cm := 0x76A000#24 } := by decide

/-! ## WellFormed: an ill-formed term for each check, refused -/

theorem test_wellFormed_request : (req 0x11#5).wellFormed = true ∧ (req 0x12#5).wellFormed = false := by
  decide

theorem test_wellFormed_instruction : Instr.wellFormed (.floor 0#32) = true := by decide

/-- LDEXP's exponent literal at and past both ends of its range (R44). -/
theorem test_wellFormed_line_exponent_range :
    Line.wellFormed ⟨[0], .op .ldexp, [.double 0#64, .int 32767], none⟩ = true ∧
    Line.wellFormed ⟨[0], .op .ldexp, [.double 0#64, .int 32768], none⟩ = false ∧
    Line.wellFormed ⟨[0], .op .ldexp, [.double 0#64, .int (-32769)], none⟩ = false := by decide

/-- COMPOSE's field literals past their widths (R44). -/
theorem test_wellFormed_line_field_range :
    Line.wellFormed ⟨[0], .op .compose, [.int 1, .int 127, .int 16777215], none⟩ = true ∧
    Line.wellFormed ⟨[0], .op .compose, [.int 2, .int 127, .int 0], none⟩ = false ∧
    Line.wellFormed ⟨[0], .op .compose, [.int 1, .int 128, .int 0], none⟩ = false ∧
    Line.wellFormed ⟨[0], .op .compose, [.int 1, .int 0, .int (-1)], none⟩ = false := by decide

/-- Literals of another kind than the port, and wrong counts of operands and destinations (R44). -/
theorem test_wellFormed_line_kinds_and_counts :
    Line.wellFormed ⟨[0], .op .abs, [.double 0#64], none⟩ = false ∧
    Line.wellFormed ⟨[0], .op .abs, [.int 1], none⟩ = false ∧
    Line.wellFormed ⟨[0], .op .ieee2ibm, [.word 0#32], none⟩ = false ∧
    Line.wellFormed ⟨[0], .op .add, [.word 0#32], none⟩ = false ∧
    Line.wellFormed ⟨[0, 1], .op .add, [.word 0#32, .name 3], none⟩ = false := by decide

/-- The aliases' operands and destinations (R45). -/
theorem test_wellFormed_line_aliases :
    Line.wellFormed ⟨[0], .short .fromBytes, [.int 0, .int 255, .int 1, .name 2], none⟩ = true ∧
    Line.wellFormed ⟨[0], .short .fromBytes, [.int 0, .int 256, .int 1, .int 2], none⟩ = false ∧
    Line.wellFormed ⟨[0], .short .fromBytes, [.int 0, .word 1#32, .int 1, .int 2], none⟩ = false ∧
    Line.wellFormed ⟨[0], .short .toBytes, [.word 0#32], none⟩ = false ∧
    Line.wellFormed ⟨[0], .short .signBit, [.double 0#64], none⟩ = false ∧
    Line.wellFormed ⟨[0, 1], .short .signBit, [.word 0#32], none⟩ = false := by decide

/-! ## Results, from 95_test_vectors.md -/

/-- Section 2: the source's literals, zeros of both signs, the extremes. -/
theorem test_ibm2ieee :
    outputs (.ibm2ieee 0xC276A000#32) = okQ 0xC05DA80000000000#64 ∧
    outputs (.ibm2ieee 0x00000020#32) = okQ 0x2EC0000000000000#64 ∧
    outputs (.ibm2ieee 0xFF000000#32) = okQ 0x8000000000000000#64 ∧
    outputs (.ibm2ieee 0x00000001#32) = okQ 0x2E70000000000000#64 ∧
    outputs (.ibm2ieee 0x7FFFFFFF#32) = okQ 0x4FAFFFFFE0000000#64 := by decide

/-- Section 3: truncation, the two arms, x mod 4, zeros. -/
theorem test_ieee2ibm_completes :
    outputs (.ieee2ibm 0x3FB999999999999A#64) = okR 0x40199999#32 ∧
    outputs (.ieee2ibm 0x402E000000000000#64) = okR 0x41F00000#32 ∧
    outputs (.ieee2ibm 0x8000000000000000#64) = okR 0x00000000#32 ∧
    outputs (.ieee2ibm 0x2FB0000000000000#64) = okR 0x00100000#32 ∧
    outputs (.ieee2ibm 0x2FAFFFFFFFFFFFFF#64) = okR 0x000FFFFF#32 ∧
    outputs (.ieee2ibm 0x2E70000000000000#64) = okR 0x00000001#32 ∧
    outputs (.ieee2ibm 0x4FAFFFFFE0000000#64) = okR 0x7FFFFFFF#32 := by decide

/-- Section 3: each error, at the edge of its range. -/
theorem test_ieee2ibm_raises :
    outputs (.ieee2ibm 0x4FAFFFFFE0000001#64) = bad .overflow ∧
    outputs (.ieee2ibm 0x4FB0000000000000#64) = bad .overflow ∧
    outputs (.ieee2ibm 0x2E6FFFFFFFFFFFFF#64) = bad .underflow ∧
    outputs (.ieee2ibm 0x8000000000000001#64) = bad .underflow ∧
    outputs (.ieee2ibm 0xFFF0000000000000#64) = bad .invalidValue ∧
    outputs (.ieee2ibm 0x7FF0000000000001#64) = bad .invalidValue := by decide

/-- Section 4. -/
theorem test_decomp : outputs (.decomp 0xC276A000#32) = some { OutPorts.undriven with
      st := some .ok, fs := some 1#1, fe := some 66#7, fm := some 0x76A000#24, ft := some 0x02#8 } ∧
    outputs (.decomp 0x000FFFFF#32) = some { OutPorts.undriven with
      st := some .ok, fs := some 0#1, fe := some 0#7, fm := some 0x0FFFFF#24, ft := some 0xC0#8 } := by
  decide

/-- Section 4. -/
theorem test_compose : outputs (.compose 1#1 66#7 0x76A000#24) = okR 0xC276A000#32 ∧
    outputs (.compose 1#1 127#7 0#24) = okR 0xFF000000#32 := by decide

/-- Section 4: a zero word, a subnormal of huge value, the smallest normal. -/
theorem test_predicates :
    outputs (.isZero 0xFF000000#32) = okP 1#1 ∧ outputs (.isZero 0x00000001#32) = okP 0#1 ∧
    outputs (.isSubn 0x7F0FFFFF#32) = okP 1#1 ∧ outputs (.isSubn 0x00100000#32) = okP 0#1 ∧
    outputs (.isSubn 0x80000000#32) = okP 0#1 ∧
    outputs (.toBool 0x80000000#32) = okP 0#1 ∧ outputs (.toBool 0x00000001#32) = okP 1#1 := by decide

/-- Section 5: no-op, each number of turns' edge, Underflow one below it. -/
theorem test_normalize :
    outputs (.normalize 0x7F000000#32) = okR 0x7F000000#32 ∧
    outputs (.normalize 0x41100000#32) = okR 0x41100000#32 ∧
    outputs (.normalize 0xC2000100#32) = okR 0xBF100000#32 ∧
    outputs (.normalize 0x010FFFFF#32) = okR 0x00FFFFF0#32 ∧
    outputs (.normalize 0x05000001#32) = okR 0x00100000#32 ∧
    outputs (.normalize 0x04000001#32) = bad .underflow ∧
    outputs (.normalize 0x000FFFFF#32) = bad .underflow := by decide

/-- Section 5. -/
theorem test_zeroSubn :
    outputs (.zeroSubn 0x80000001#32) = okR 0x00000000#32 ∧
    outputs (.zeroSubn 0x7F000000#32) = okR 0x7F000000#32 ∧
    outputs (.zeroSubn 0xC276A000#32) = okR 0xC276A000#32 := by decide

/-- Section 6. -/
theorem test_abs_and_neg :
    outputs (.abs 0xFF000000#32) = okR 0x7F000000#32 ∧
    outputs (.abs 0x7F0FFFFF#32) = okR 0x7F0FFFFF#32 ∧
    outputs (.neg 0x00000000#32) = okR 0x80000000#32 ∧
    outputs (.neg 0x7F0FFFFF#32) = okR 0xFF0FFFFF#32 := by decide

/-- Section 7: carry, lost digit, cancellation, no guard digit, field 0, Overflow at field 127. -/
theorem test_add :
    outputs (.add 0x41F00000#32 0x41100000#32) = okR 0x42100000#32 ∧
    outputs (.add 0x41100000#32 0x40199999#32) = okR 0x41119999#32 ∧
    outputs (.add 0x41100001#32 0xC1100000#32) = okR 0x3C100000#32 ∧
    outputs (.add 0x41100000#32 0xC0FFFFFF#32) = okR 0x3C100000#32 ∧
    outputs (.add 0x01100000#32 0x810FFFFF#32) = okR 0x00000010#32 ∧
    outputs (.add 0x7FFFFFFF#32 0x7A100000#32) = bad .overflow ∧
    outputs (.add 0x7FFFFFFF#32 0x79100000#32) = okR 0x7FFFFFFF#32 := by decide

/-- Section 7. -/
theorem test_sub :
    outputs (.sub 0x00000000#32 0x41100000#32) = okR 0xC1100000#32 ∧
    outputs (.sub 0x80000000#32 0x80000000#32) = okR 0x00000000#32 ∧
    outputs (.sub 0x41100000#32 0x40199999#32) = okR 0x40E66670#32 ∧
    outputs (.sub 0x7FFFFFFF#32 0xFFFFFFFF#32) = bad .overflow := by decide

/-- Section 8: ordinary, truncated, the edges of each error, a subnormal double. -/
theorem test_ldexp :
    outputs (.ldexp 0x3FE999999999999A#64 0xFFFD#16) = okR 0x40199999#32 ∧
    outputs (.ldexp 0x3FE0000000000000#64 0xFEE9#16) = okR 0x00000001#32 ∧
    outputs (.ldexp 0x3FE0000000000000#64 0xFEE8#16) = bad .underflow ∧
    outputs (.ldexp 0x3FEFFFFFE0000000#64 0x00FC#16) = okR 0x7FFFFFFF#32 ∧
    outputs (.ldexp 0x3FEFFFFFE0000001#64 0x00FC#16) = bad .overflow ∧
    outputs (.ldexp 0x0000000000000001#64 0x0432#16) = okR 0x41100000#32 ∧
    outputs (.ldexp 0x7FF0000000000000#64 0xF830#16) = bad .invalidValue := by decide

/-- Section 8. -/
theorem test_frexp :
    outputs (.frexp 0xC276A000#32) = some { OutPorts.undriven with
      st := some .ok, q := some 0xBFEDA80000000000#64, x := some 0x0007#16 } ∧
    outputs (.frexp 0x00000001#32) = some { OutPorts.undriven with
      st := some .ok, q := some 0x3FE0000000000000#64, x := some 0xFEE9#16 } ∧
    outputs (.frexp 0x80000000#32) = some { OutPorts.undriven with
      st := some .ok, q := some 0x8000000000000000#64, x := some 0x0000#16 } := by decide

/-- Section 9. -/
theorem test_trunc :
    outputs (.trunc 0xC276A000#32) = okZ (-118) ∧ outputs (.trunc 0xC0800000#32) = okZ 0 ∧
    outputs (.trunc 0x46000001#32) = okZ 1 ∧ outputs (.trunc 0x48100000#32) = okZ 268435456 := by decide

/-- Section 9. -/
theorem test_ceil_and_floor :
    outputs (.ceil 0x00000001#32) = okZ 1 ∧ outputs (.ceil 0xC5FFFFFF#32) = okZ (-1048575) ∧
    outputs (.ceil 0x41100000#32) = okZ 1 ∧
    outputs (.floor 0x80000001#32) = okZ (-1) ∧ outputs (.floor 0x45FFFFFF#32) = okZ 1048575 ∧
    outputs (.floor 0x80000000#32) = okZ 0 := by decide

/-! ## The host: reading ports, scripts -/

/-- A driven port reads as driven, the status as its code (R20). -/
theorem test_read_driven :
    (State.reset.raise .underflow).readSt = 3#2 ∧
    (State.reset.complete (driveR 0x41100000#32)).readR = 0x41100000#32 := by decide

/-- Program 2, lines 5 and 6: a raising line binds nothing and the one before it stays (R44). -/
theorem test_script_raise_binds_nothing :
    (runScript ⟨[], State.reset⟩
      [⟨[0], .op .compose, [.int 1, .int 4, .int 1], none⟩,
       ⟨[1], .op .normalize, [.name 0], some .underflow⟩]).map HostState.env =
      .ok [(0, ⟨32, 0x84000001#32⟩)] := by decide

/-- R29's literal bytes of -118.625, and ISNORM of the word (R45). -/
theorem test_script_aliases :
    (runScript ⟨[], State.reset⟩
      [⟨[0], .short .fromBytes, [.int 0xC2, .int 0x76, .int 0xA0, .int 0x00], none⟩,
       ⟨[1], .short .isNorm, [.name 0], some .ok⟩]).map HostState.env =
      .ok [(1, ⟨1, 1#1⟩), (0, ⟨32, 0xC276A000#32⟩)] := by decide

/-- Errors of the script: an unbound name, a name of another width, a status that was not given. -/
theorem test_script_errors :
    runLine ⟨[], State.reset⟩ ⟨[0], .op .abs, [.name 7], none⟩ = .error (.unbound 7) ∧
    runLine ⟨[(7, ⟨64, 0#64⟩)], State.reset⟩ ⟨[0], .op .abs, [.name 7], none⟩ = .error .wrongKind ∧
    runLine ⟨[], State.reset⟩ ⟨[0], .op .abs, [.word 0#32], some .overflow⟩ =
      .error (.wrongStatus (some .ok)) := by decide

/-! ## The first step after reset -/

/-- A table word presented after reset is run by the next step. -/
theorem test_withFetchWord_runs :
    step (State.reset.withFetchWord 8 0x0A) = exec (.neg 0#32) (State.reset.withFetchWord 8 0x0A) := rfl

/-! ## Witnesses: the hypotheses of the statements are met together -/

/-- For DecodeEncodeRoundTrip and StepRunsDecodedInstruction. -/
theorem test_witness_decodes :
    decode (presented (req 0x0B#5)).inp = .ok (.add 0x41100000#32 0x40199999#32) := by decide

/-- For ReservedCodesAreRefused: both ends of both ranges. -/
theorem test_witness_reserved_codes :
    0x12 ≤ (presented (req 0x12#5)).inp.op.toNat ∧ 0x12 ≤ (presented (req 0x1F#5)).inp.op.toNat ∧
    (presented (req 0x11#5)).inp.op.toNat ≤ 0x11 ∧ (presented (req 0x00#5)).inp.op.toNat ≤ 0x11 := by
  decide

/-- For OperationsFollowThePortMap: two bundles of ABS that agree on `a` and on nothing else. -/
theorem test_witness_port_map :
    (presented (req 0x09#5)).inp.op = Op.code .abs ∧
    (presented (encode (.abs 0x41100000#32))).inp.op = Op.code .abs ∧
    (∀ p ∈ Op.reads .abs, (presented (req 0x09#5)).inp.portBits p =
      (presented (encode (.abs 0x41100000#32))).inp.portBits p) ∧
    ErrorKind.underflow ∈ Op.raises .normalize := by decide

/-- For EqualRequestsGiveEqualOutputs: transactions that came between. -/
theorem test_witness_between :
    ∃ u, State.reset.transactAll [req 0x0B#5, req 0x07#5] = .next u := ⟨_, rfl⟩

/-- For RepeatingATransactionIsIdempotent, StatusCarriesOneOfFourCodes and UndrivenReadsAreFreshDraws. -/
theorem test_witness_step : ∃ t, step (presented (req 0x0C#5)) = .next t := ⟨_, rfl⟩

/-- For ErrorsDriveNoResult: each kind is raised by a step. -/
theorem test_witness_step_raises :
    (∃ t, step (presented (encode (.ieee2ibm 0x7FF8000000000000#64))) = .next t ∧
      t.out.st = some (ErrorKind.status .invalidValue)) ∧
    (∃ t, step (presented (encode (.add 0x7FFFFFFF#32 0x7FFFFFFF#32))) = .next t ∧
      t.out.st = some (ErrorKind.status .overflow)) ∧
    (∃ t, step (presented (encode (.normalize 0x00000001#32))) = .next t ∧
      t.out.st = some (ErrorKind.status .underflow)) :=
  ⟨⟨_, rfl, by decide⟩, ⟨_, rfl, by decide⟩, ⟨_, rfl, by decide⟩⟩

/-- For UndrivenReadsAreFreshDraws: after IBM2IEEE every port but `st` and `q` is undriven, and at reset
those two are. -/
theorem test_witness_undriven :
    State.reset.out.st = none ∧ State.reset.out.q = none ∧
    (State.reset.complete (driveQ 0#64)).out = { OutPorts.undriven with
      st := some .ok, q := some 0#64 } := by decide

/-- For StepKeepsLegalOutputs: a state with a raised error meets the invariant, and steps. -/
theorem test_witness_invariant :
    ((presented (req 0x0B#5)).raise .overflow).Inv ∧
    ∃ t, step ((presented (req 0x0B#5)).raise .overflow) = .next t := by
  refine ⟨⟨.inr ⟨.add, .inr ⟨.overflow, by decide, rfl, by decide⟩⟩, ?_, ?_, ?_, ?_⟩, _, rfl⟩ <;>
    simp [OutPorts.undriven]

/-- For the statements by class of a word: zero, subnormal, normalized, at the edges. -/
theorem test_witness_word_classes :
    fieldM 0xFF000000#32 = 0 ∧ fieldM 0x00000001#32 ≠ 0 ∧
    (fieldM 0x000FFFFF#32 ≠ 0 ∧ fieldM 0x000FFFFF#32 < 2 ^ 20) ∧ 2 ^ 20 ≤ fieldM 0x00100000#32 ∧
    2 ^ 20 ≤ fieldM 0x7FFFFFFF#32 := by decide

/-- For NormalizeResult: the field at and below the number of digits, five. -/
theorem test_witness_normalize_edges :
    (2 ^ 20 ≤ fieldM 0x04000001#32 * 16 ^ 5 ∧ fieldE 0x04000001#32 < 5) ∧
    (2 ^ 20 ≤ fieldM 0x05000001#32 * 16 ^ 5 ∧ 5 ≤ fieldE 0x05000001#32) := by decide

/-- For NormalizerIsIdempotent: NORMALIZE completes with a result. -/
theorem test_witness_normalize_completes :
    ∃ t, exec (.normalize 0x41000001#32) State.reset = .next t ∧ t.out.r = some 0x3C100000#32 :=
  ⟨_, rfl, by decide⟩

/-- For Ieee2ibmEncodesTheValue and LdexpEncodesTheProduct: a double without a value and one with. -/
theorem test_witness_double_values :
    doubleVal 0x7FF8000000000000#64 = none ∧ doubleVal 0x3FF0000000000000#64 = some 1 := by
  constructor
  · rfl
  · have he : dblExp 0x3FF0000000000000#64 = 1023#11 := by decide
    have hf : dblFrac 0x3FF0000000000000#64 = 0#52 := by decide
    have hs : dblSign 0x3FF0000000000000#64 = 0#1 := by decide
    norm_num [doubleVal, he, hf, hs, signQ]

/-- For DoubleToWordToDouble: 1.0 lies in the range, and is the value of a word (both ends of the
range are exercised by test_ieee2ibm_completes). -/
theorem test_witness_double_in_range :
    doubleVal 0x3FF0000000000000#64 = some 1 ∧ (2 : ℚ) ^ (-280 : ℤ) ≤ |(1 : ℚ)| ∧
    |(1 : ℚ)| ≤ maxMagnitude ∧ val 0x41100000#32 = 1 := by
  refine ⟨test_witness_double_values.2, ?_, by norm_num [maxMagnitude], ?_⟩
  · rw [abs_one]; exact zpow_le_one_of_nonpos₀ (by norm_num) (by norm_num)
  have he : expf 0x41100000#32 = 65#7 := by decide
  have hm : mant 0x41100000#32 = 0x100000#24 := by decide
  have hs : sign 0x41100000#32 = 0#1 := by decide
  norm_num [val, he, hm, hs, signQ]

/-- For EqualValuesDifferByDigitMoves: 1/16 as a subnormal and as a normalized word. -/
theorem test_witness_equal_values :
    fieldM 0x41010000#32 ≠ 0 ∧ fieldM 0x40100000#32 ≠ 0 ∧ val 0x41010000#32 = val 0x40100000#32 := by
  refine ⟨by decide, by decide, ?_⟩
  have he : expf 0x41010000#32 = 65#7 := by decide
  have hm : mant 0x41010000#32 = 0x010000#24 := by decide
  have hs : sign 0x41010000#32 = 0#1 := by decide
  have he' : expf 0x40100000#32 = 64#7 := by decide
  have hm' : mant 0x40100000#32 = 0x100000#24 := by decide
  have hs' : sign 0x40100000#32 = 0#1 := by decide
  norm_num [val, he, hm, hs, he', hm', hs', signQ]

/-- For AddSubAccuracy and CanonicalOperandsGiveCanonicalSums: canonical words whose sum and difference
complete. -/
theorem test_witness_canonical_sum :
    isCanonicalWord 0x41100000#32 = true ∧ isCanonicalWord 0x40199999#32 = true ∧
    (∃ t, exec (.add 0x41100000#32 0x40199999#32) State.reset = .next t ∧
      t.out.r = some 0x41119999#32) ∧
    (∃ t, exec (.sub 0x41100000#32 0x40199999#32) State.reset = .next t ∧
      t.out.r = some 0x40E66670#32) :=
  ⟨by decide, by decide, ⟨_, rfl, by decide⟩, ⟨_, rfl, by decide⟩⟩

/-- For NormalizeLoopNeedsFiveTurns: a mantissa that is not zero. -/
theorem test_witness_loop : (1#24 : BitVec 24) ≠ 0#24 := by decide

/-- For TruncOfEncodedGivesTheInteger, the first form at its upper bound: `2^24 + 0` encodes. -/
theorem test_witness_encoded_integer :
    doubleVal 0x4170000000000000#64 = some ((2 ^ 24 : ℤ) + (0 : ℚ)) ∧
    ∃ t, exec (.ieee2ibm 0x4170000000000000#64) State.reset = .next t ∧
      t.out = completesWith 0x47100000#32 := by
  refine ⟨?_, _, rfl, by decide⟩
  have he : dblExp 0x4170000000000000#64 = 1047#11 := by decide
  have hf : dblFrac 0x4170000000000000#64 = 0#52 := by decide
  have hs : dblSign 0x4170000000000000#64 = 0#1 := by decide
  norm_num [doubleVal, he, hf, hs, signQ]

/-- The mirrored form at its lower bound: `-2^24 - 0` encodes. -/
theorem test_witness_encoded_lower_bound :
    doubleVal 0xC170000000000000#64 = some ((-2 ^ 24 : ℤ) - (0 : ℚ)) ∧
    ∃ t, exec (.ieee2ibm 0xC170000000000000#64) State.reset = .next t ∧
      t.out = completesWith 0xC7100000#32 := by
  refine ⟨?_, _, rfl, by decide⟩
  have he : dblExp 0xC170000000000000#64 = 1047#11 := by decide
  have hf : dblFrac 0xC170000000000000#64 = 0#52 := by decide
  have hs : dblSign 0xC170000000000000#64 = 1#1 := by decide
  norm_num [doubleVal, he, hf, hs, signQ]

/-- For TruncOfEncodedGivesTheInteger, the mirrored form: -4.5 is `-4 - 1/2`, and encodes (Q7). -/
theorem test_witness_encoded_negative :
    doubleVal 0xC012000000000000#64 = some ((-4 : ℤ) - (1 / 2 : ℚ)) ∧
    ∃ t, exec (.ieee2ibm 0xC012000000000000#64) State.reset = .next t ∧
      t.out = completesWith 0xC1480000#32 := by
  refine ⟨?_, _, rfl, by decide⟩
  have he : dblExp 0xC012000000000000#64 = 1025#11 := by decide
  have hf : dblFrac 0xC012000000000000#64 = 0x2000000000000#52 := by decide
  have hs : dblSign 0xC012000000000000#64 = 1#1 := by decide
  norm_num [doubleVal, he, hf, hs, signQ]

/-- A line's operands reach the ports in the order of the "reads" column: 100 - 1, and a name on `b`
(95_test_vectors.md section 7, R44). -/
theorem test_script_operand_order :
    (runLine ⟨[(5, ⟨32, 0x41100000#32⟩)], State.reset⟩
      ⟨[0], .op .sub, [.word 0x42640000#32, .name 5], some .ok⟩).map HostState.env =
      .ok [(0, ⟨32, 0x42630000#32⟩), (5, ⟨32, 0x41100000#32⟩)] := by decide

/-- The choices of log entry 6: a repeated destination is found at its later place, destinations of a
raising line are not counted but those of a completing one are, and what FROMBYTES may state. -/
theorem test_script_choices :
    (runLine ⟨[], State.reset⟩ ⟨[0, 0, 1, 0], .op .decomp, [.word 0xC276A000#32], none⟩).map
      (fun h => lookupName 0 h.env) = .ok (some ⟨8, 0x02#8⟩) ∧
    (runLine ⟨[], State.reset⟩ ⟨[0, 1], .op .normalize, [.word 1#32], none⟩).map HostState.env =
      .ok [] ∧
    (runLine ⟨[], State.reset⟩ ⟨[0, 1], .op .neg, [.word 1#32], none⟩).map HostState.env =
      .error .wrongCount ∧
    (runLine ⟨[], State.reset⟩
      ⟨[0], .short .fromBytes, [.int 1, .int 2, .int 3, .int 4], some .overflow⟩).map HostState.env =
      .error (.wrongStatus none) := by decide

/-- For ScriptLineIsOneTransaction: a line that completes and one that raises, each with an operand in
each place. -/
theorem test_witness_script_lines :
    (∃ h, runLine ⟨[], State.reset⟩ ⟨[0], .op .sub, [.word 0#32, .word 1#32], none⟩ = .ok h ∧
      h.machine.out.st = some .ok) ∧
    ((Op.reads .sub)[1]? = some .b ∧ [Operand.word 0#32, .word 1#32][1]? = some (.word 1#32)) ∧
    ∃ h, runLine ⟨[], State.reset⟩ ⟨[0], .op .normalize, [.word 1#32], none⟩ = .ok h ∧
      h.machine.out.st ≠ some .ok :=
  ⟨⟨_, rfl, by decide⟩, by decide, ⟨_, rfl, by decide⟩⟩

end Sys2Proof.Tests
end

section
/-! SUPPORT. What one transaction can answer: its outcome is fixed by the request alone, and it either
completes with OK or raises with the status alone. The statements on the step (O3, O6, O8, O9) rest on
these. -/

namespace Sys2Proof

@[simp] theorem ErrorKind.status_ne_ok (k : ErrorKind) : k.status ≠ .ok := by cases k <;> decide

@[simp] theorem ErrorKind.status_inj {k l : ErrorKind} : k.status = l.status ↔ k = l := by
  cases k <;> cases l <;> decide

end Sys2Proof

namespace Sys2Proof.Machine

/-- Raising puts the error's own bundle on the ports (R26). -/
theorem State.raise_out_eq_raisesKind (s : State) (k : ErrorKind) : (s.raise k).out = raisesKind k :=
  rfl

/-- The outputs a conclusion gives do not depend on the state that is concluded. -/
theorem State.conclude_out_eq {α : Type} (s u : State) (f : α → OutPorts) (res : Except ErrorKind α) :
    (s.conclude f res).out = (u.conclude f res).out := by
  cases res <;> rfl

/-- A step at a request that decodes runs the instruction (R11, R39). -/
theorem step_eq_exec {s : State} {i : Instr} (h : decode s.inp = .ok i) : step s = exec i s := by
  simp [step, h]

/-- A step at a request that the decoder rejects is refused under that name (R41). -/
theorem step_eq_refused {s : State} {e : DecodeReject} (h : decode s.inp = .error e) :
    step s = .refused (refuse e) := by
  simp [step, h]

/-- The request alone fixes the outcome of a transaction: one error union for every state, or one
refusal for every state (R11). -/
theorem transact_fixed_by_request (req : Request) :
    (∃ res : Except ErrorKind OutPorts, ∀ s : State,
        s.transact req = .next ((s.present req).conclude id res)) ∨
      ∃ r, ∀ s : State, s.transact req = .refused r := by
  cases h : decode req with
  | ok i =>
    obtain ⟨res, hres⟩ := exec_concludes i
    exact .inl ⟨res, fun s => (step_eq_exec (s := s.present req) h).trans (hres _)⟩
  | error e => exact .inr ⟨refuse e, fun s => step_eq_refused (s := s.present req) h⟩

/-- The same request gives the same output bundle, or the same refusal, at any two states (R11). -/
theorem transact_out_eq (s u : State) (req : Request) :
    (∃ t v, s.transact req = .next t ∧ u.transact req = .next v ∧ t.out = v.out) ∨
      ∃ r, s.transact req = .refused r ∧ u.transact req = .refused r := by
  obtain ⟨res, hres⟩ | ⟨r, hr⟩ := transact_fixed_by_request req
  · exact .inl ⟨_, _, hres s, hres u, State.conclude_out_eq _ _ id res⟩
  · exact .inr ⟨r, hr s, hr u⟩

/-- A step that answers a next state leaves the inputs as presented (R12). -/
theorem step_inp {s t : State} (h : step s = .next t) : t.inp = s.inp := by
  obtain ⟨i, -, hexec⟩ := step_eq_next h
  exact (exec_frame hexec).1

/-- What stands on the output ports after a step: OK, or an error's status and nothing else. -/
theorem step_out_cases {s t : State} (h : step s = .next t) :
    t.out.st = some .ok ∨ ∃ k, t.out = raisesKind k := by
  obtain ⟨i, -, hexec⟩ := step_eq_next h
  obtain ⟨res, hres⟩ := exec_concludes i
  obtain rfl : s.conclude id res = t := by simpa [hres] using hexec
  obtain ⟨v, -, hok⟩ | ⟨k, -, herr⟩ := State.conclude_cases s id res
  · exact .inl (by simp [hok])
  · exact .inr ⟨k, by rw [herr, State.raise_out_eq_raisesKind]⟩

/-- A driven status port reads as its status's code (R20). -/
theorem State.readSt_of_driven {s : State} {v : Status} (h : s.out.st = some v) :
    s.readSt = v.code := by
  simp [State.readSt, h]

end Sys2Proof.Machine
end

section
/-! The statements on the step and the whole machine. -/

namespace Sys2Proof.Machine

/-- Settles O6: the request alone fixes the outcome, so whatever ran in between plays no part. -/
theorem equalRequestsGiveEqualOutputs : Obligations.EqualRequestsGiveEqualOutputs :=
  fun s u _ req _ => transact_out_eq s u req

/-- Settles O8: a step that does not end with OK put the error's bundle on the ports. -/
theorem errorsDriveNoResult : Obligations.ErrorsDriveNoResult := by
  intro s t k h hst
  refine ⟨?_, step_inp h⟩
  obtain hok | ⟨l, hl⟩ := step_out_cases h
  · exact absurd (Option.some.inj (hok.symm.trans hst)) (ErrorKind.status_ne_ok k).symm
  · obtain rfl : l = k := by simpa [hl, raisesKind] using hst
    exact hl

/-- Settles O3: the step's one branch at a request that decodes. -/
theorem stepRunsDecodedInstruction : Obligations.StepRunsDecodedInstruction :=
  fun _ _ h => step_eq_exec h

/-- Settles O9: OK or an error kind's status stands on `st`, and a driven port reads as its code. -/
theorem statusCarriesOneOfFourCodes : Obligations.StatusCarriesOneOfFourCodes := by
  refine ⟨fun s t h => ?_, rfl, rfl, rfl, rfl⟩
  obtain hok | ⟨k, hk⟩ := step_out_cases h
  · exact ⟨.ok, hok, State.readSt_of_driven hok⟩
  · have hst : t.out.st = some k.status := by rw [hk]; rfl
    exact ⟨k.status, hst, State.readSt_of_driven hst⟩

end Sys2Proof.Machine
end

section
/-! SUPPORT. The classes and the value of a word by its fields as numbers: the mantissa decides the
class (R17), and the value is the signed mantissa times a power of two (R15). -/

namespace Sys2Proof.Machine

theorem mant_eq_zero_iff (w : IbmWord) : mant w = 0#24 ↔ fieldM w = 0 := by
  rw [← BitVec.toNat_inj, mant_toNat, BitVec.toNat_zero]

theorem isZeroWord_iff (w : IbmWord) : isZeroWord w = true ↔ fieldM w = 0 := by
  rw [isZeroWord, beq_iff_eq, mant_eq_zero_iff]

theorem isSubnormalWord_iff (w : IbmWord) :
    isSubnormalWord w = true ↔ fieldM w ≠ 0 ∧ fieldM w < 2 ^ 20 := by
  rw [isSubnormalWord, Bool.and_eq_true, bne_iff_ne, beq_iff_eq, Ne, mant_eq_zero_iff,
    topDigit_eq_zero_iff, mant_toNat]

theorem isNormalizedWord_iff (w : IbmWord) :
    isNormalizedWord w = true ↔ fieldM w = 0 ∨ 2 ^ 20 ≤ fieldM w := by
  rw [isNormalizedWord, Bool.not_eq_true', ← Bool.not_eq_true, isSubnormalWord_iff]
  omega

/-- A sign bit is set exactly when the sign as a number is 1. -/
theorem sign_eq_one_iff (w : IbmWord) : sign w = 1#1 ↔ fieldS w = 1 := by
  rw [← BitVec.toNat_inj, sign_toNat, BitVec.toNat_ofNat]

/-- The value by the fields as numbers (R15). -/
theorem val_eq_fields (w : IbmWord) :
    val w = (if fieldS w = 1 then -1 else 1) * (fieldM w : ℚ) * 2 ^ (4 * (fieldE w : ℤ) - 280) := by
  simp only [val, signQ, sign_eq_one_iff, mant_toNat, expf_toNat]

/-- The magnitude is the mantissa times the power of two of the field (R15). -/
theorem abs_val (w : IbmWord) : |val w| = (fieldM w : ℚ) * 2 ^ (4 * (fieldE w : ℤ) - 280) := by
  have hmag : (0 : ℚ) ≤ (fieldM w : ℚ) * 2 ^ (4 * (fieldE w : ℤ) - 280) := by positivity
  rw [val_eq_fields, mul_assoc]
  split
  · rw [neg_one_mul, abs_neg, abs_of_nonneg hmag]
  · rw [one_mul, abs_of_nonneg hmag]

/-- A word's value is zero exactly when its mantissa is (R16). -/
theorem val_eq_zero_iff (w : IbmWord) : val w = 0 ↔ fieldM w = 0 := by
  rw [← abs_eq_zero, abs_val]
  simp [zpow_ne_zero]

/-- The least non-zero magnitude: mantissa 1 at field 0 (R15). -/
theorem le_abs_val {w : IbmWord} (h : fieldM w ≠ 0) : (2 : ℚ) ^ (-280 : ℤ) ≤ |val w| := by
  have hm : (1 : ℚ) ≤ fieldM w := by exact_mod_cast Nat.one_le_iff_ne_zero.2 h
  calc (2 : ℚ) ^ (-280 : ℤ) ≤ 2 ^ (4 * (fieldE w : ℤ) - 280) :=
        zpow_le_zpow_right₀ one_le_two (by omega)
    _ ≤ fieldM w * 2 ^ (4 * (fieldE w : ℤ) - 280) := le_mul_of_one_le_left (by positivity) hm
    _ = |val w| := (abs_val w).symm

/-- The largest magnitude: mantissa all ones at field 127 (R15). -/
theorem abs_val_le (w : IbmWord) : |val w| ≤ maxMagnitude := by
  have hm : (fieldM w : ℚ) ≤ 2 ^ 24 - 1 := by
    have hlt : (fieldM w : ℚ) + 1 ≤ 2 ^ 24 := by exact_mod_cast fieldM_lt w
    linarith
  have he := fieldE_lt w
  calc |val w| = fieldM w * 2 ^ (4 * (fieldE w : ℤ) - 280) := abs_val w
    _ ≤ (2 ^ 24 - 1) * 2 ^ (228 : ℤ) :=
        mul_le_mul hm (zpow_le_zpow_right₀ one_le_two (by omega)) (by positivity) (by norm_num)
    _ = maxMagnitude := rfl

/-- The value of a positive word from its fields. -/
theorem val_of_fields_pos {w : IbmWord} {e m : Nat} (hs : fieldS w = 0) (he : fieldE w = e)
    (hm : fieldM w = m) : val w = (m : ℚ) * 2 ^ (4 * (e : ℤ) - 280) := by
  simp [val_eq_fields, hs, he, hm]

/-- The value of a negative word from its fields. -/
theorem val_of_fields_neg {w : IbmWord} {e m : Nat} (hs : fieldS w = 1) (he : fieldE w = e)
    (hm : fieldM w = m) : val w = -((m : ℚ) * 2 ^ (4 * (e : ℤ) - 280)) := by
  simp [val_eq_fields, hs, he, hm]

/-- `MAX_IBM_FLOAT` has the largest magnitude (R19). -/
theorem val_maxIbmFloat : val maxIbmFloat = maxMagnitude := by
  rw [val_of_fields_pos (e := 127) (m := 2 ^ 24 - 1) (by decide) (by decide) (by decide), maxMagnitude]
  norm_num

/-- A word and the word with the other sign have opposite values (R14, R15). -/
theorem val_eq_neg_of_fields {w u : IbmWord} (hw : fieldS w = 1) (hu : fieldS u = 0)
    (he : fieldE w = fieldE u) (hm : fieldM w = fieldM u) : val w = -val u := by
  rw [val_of_fields_neg hw he hm, val_of_fields_pos hu rfl rfl]

/-- The value of a positive word whose mantissa is a power of two. -/
theorem val_of_power_of_two {w : IbmWord} {e p : Nat} (hs : fieldS w = 0) (he : fieldE w = e)
    (hm : fieldM w = 2 ^ p) : val w = (2 : ℚ) ^ ((p : ℤ) + (4 * (e : ℤ) - 280)) := by
  rw [val_of_fields_pos hs he hm, zpow_add₀ two_ne_zero, zpow_natCast, Nat.cast_pow, Nat.cast_ofNat]

/-- The smallest subnormal has the least non-zero magnitude (R19). -/
theorem val_smallestSubnormal : val smallestSubnormal = (2 : ℚ) ^ (-280 : ℤ) :=
  val_of_power_of_two (e := 0) (p := 0) (by decide) (by decide) (by decide)

theorem val_smallestPositiveNormal : val smallestPositiveNormalIbmFloat = (2 : ℚ) ^ (-260 : ℤ) :=
  val_of_power_of_two (e := 0) (p := 20) (by decide) (by decide) (by decide)

theorem val_epsilon : val epsilonIbmFloat = (2 : ℚ) ^ (-24 : ℤ) :=
  val_of_power_of_two (e := 64) (p := 0) (by decide) (by decide) (by decide)

/-- The normalized epsilon word has the epsilon's value, five digits up and five fields down (R19). -/
theorem val_epsilonNormalized : val epsilonNormalized = (2 : ℚ) ^ (-24 : ℤ) :=
  val_of_power_of_two (e := 59) (p := 20) (by decide) (by decide) (by decide)

theorem val_maxExactInteger : val maxExactIntegerIbmFloat = 2 ^ 24 :=
  val_of_power_of_two (e := 71) (p := 20) (by decide) (by decide) (by decide)

end Sys2Proof.Machine
end

section
/-! The statements on the words. -/

namespace Sys2Proof.Machine

/-- Settles O15: the bounds on mantissa and field bound the magnitude, and two constants attain them. -/
theorem nonzeroMagnitudesLieInRange : Obligations.NonzeroMagnitudesLieInRange :=
  ⟨fun w => ⟨val_eq_zero_iff w, fun h => ⟨le_abs_val h, abs_val_le w⟩⟩,
    val_smallestSubnormal, val_maxIbmFloat⟩

/-- Settles O16: each predicate by the mantissa as a number. -/
theorem everyWordHasOneClass : Obligations.EveryWordHasOneClass :=
  fun w => ⟨isZeroWord_iff w, isSubnormalWord_iff w, isNormalizedWord_iff w⟩

/-- Settles O17: the values by the fields, a negative constant as the positive one's opposite, and the
doubles by evaluating the conversion. -/
theorem namedConstantsHaveTheirValues : Obligations.NamedConstantsHaveTheirValues := by
  have hmin : val minIbmFloat = -val maxIbmFloat :=
    val_eq_neg_of_fields (by decide) (by decide) (by decide) (by decide)
  have hneg : val largestNegativeNormalIbmFloat = -val smallestPositiveNormalIbmFloat :=
    val_eq_neg_of_fields (by decide) (by decide) (by decide) (by decide)
  have hint : val minExactIntegerIbmFloat = -val maxExactIntegerIbmFloat :=
    val_eq_neg_of_fields (by decide) (by decide) (by decide) (by decide)
  exact ⟨rfl, val_maxIbmFloat, by decide, hmin.trans (congrArg _ val_maxIbmFloat), by decide,
    val_smallestPositiveNormal, by decide, hneg.trans (congrArg _ val_smallestPositiveNormal), by decide,
    val_smallestSubnormal, by decide, val_epsilon, val_epsilonNormalized, by decide,
    val_maxExactInteger, by decide, hint.trans (congrArg _ val_maxExactInteger), by decide⟩

end Sys2Proof.Machine
end

section
/-! SUPPORT. Repeating a transaction: the outputs depend on the state through the inputs alone, and the
inputs stay (R11, R12, R32). -/

namespace Sys2Proof.Machine

/-- Presenting the request that already stands on the ports is a plain step. -/
theorem State.transact_inp (s : State) : s.transact s.inp = step s := rfl

/-- A state with the same inputs answers the same outputs, whatever else it holds (R11). -/
theorem step_out_of_same_inp {s t u : State} (hinp : u.inp = s.inp) (h : step s = .next t) :
    ∃ v, step u = .next v ∧ v.out = t.out := by
  rw [← State.transact_inp] at h
  rw [← State.transact_inp, hinp]
  obtain ⟨t', v, hs, hu, hout⟩ | ⟨r, hs, -⟩ := transact_out_eq s u s.inp
  · obtain rfl : t' = t := by simpa [hs] using h
    exact ⟨v, hu, hout.symm⟩
  · simp [hs] at h

end Sys2Proof.Machine
end

section
/-! SUPPORT. The four-byte buffer as numbers: the word is the bytes' big-endian sum, and each byte is a
digit of the word in base 2^8 (R29). -/

namespace Sys2Proof.Machine

/-- Appending a byte below a bit string shifts the number up by one base-2^8 digit. -/
theorem append_byte_toNat {n : Nat} (v : BitVec n) (b : Byte) :
    (v ++ b).toNat = v.toNat * 2 ^ 8 + b.toNat := by
  rw [BitVec.toNat_append, ← Nat.shiftLeft_add_eq_or_of_lt b.isLt, Nat.shiftLeft_eq]

/-- The word of four bytes as a number (R29). -/
theorem fromBytes_toNat (b0 b1 b2 b3 : Byte) : (fromBytes b0 b1 b2 b3).toNat =
    b0.toNat * 2 ^ 24 + b1.toNat * 2 ^ 16 + b2.toNat * 2 ^ 8 + b3.toNat := by
  simp only [fromBytes, append_byte_toNat]
  ring

/-- A byte of a word as a number. -/
theorem byteAt_toNat (w : IbmWord) (i : Nat) :
    (w.extractLsb' i 8).toNat = w.toNat / 2 ^ i % 2 ^ 8 := by
  rw [BitVec.extractLsb'_toNat, Nat.shiftRight_eq_div_pow]

/-- The bytes of the word of four bytes are those four, in order (R29). -/
theorem toBytes_fromBytes (b0 b1 b2 b3 : Byte) :
    toBytes (fromBytes b0 b1 b2 b3) = [b0, b1, b2, b3] := by
  have h0 := b0.isLt
  have h1 := b1.isLt
  have h2 := b2.isLt
  have h3 := b3.isLt
  simp only [toBytes, List.cons.injEq, and_true, ← BitVec.toNat_inj, byteAt_toNat, fromBytes_toNat]
  omega

/-- The word of a word's bytes is that word (R29). -/
theorem fromBytes_bytesOf (w : IbmWord) : fromBytes (w.extractLsb' 24 8) (w.extractLsb' 16 8)
    (w.extractLsb' 8 8) (w.extractLsb' 0 8) = w := by
  have hw := w.isLt
  apply BitVec.eq_of_toNat_eq
  simp only [fromBytes_toNat, byteAt_toNat]
  omega

end Sys2Proof.Machine
end

section
/-! The statements on the host's view of a transaction and of the byte buffer. -/

namespace Sys2Proof.Machine

/-- Settles O7: the first step leaves the inputs as presented, and the outputs follow the inputs alone. -/
theorem repeatingATransactionIsIdempotent : Obligations.RepeatingATransactionIsIdempotent := by
  intro s t h
  have hinp := step_inp h
  obtain ⟨u, hu, hout⟩ := step_out_of_same_inp hinp h
  exact ⟨u, hu, hout, (step_inp hu).trans hinp⟩

/-- Settles O14: the bytes are the digits of the word in base 2^8. -/
theorem bytesAreBigEndian : Obligations.BytesAreBigEndian :=
  ⟨fun b0 b1 b2 b3 => ⟨fromBytes_toNat b0 b1 b2 b3, toBytes_fromBytes b0 b1 b2 b3⟩,
    fun w => ⟨_, _, _, _, rfl, fromBytes_bytesOf w⟩⟩

end Sys2Proof.Machine
end

section
/-! SUPPORT. An instruction against its request (R38, R39), and the error union it puts on the ports as a
function of the instruction (R40). -/

namespace Sys2Proof

/-- Over its own encoding an operation takes back the instruction, whatever the background. -/
@[simp] theorem Op.instr_encodeOnto (bg : Request) (i : Instr) : i.op.instr (encodeOnto bg i) = i := by
  cases i <;> rfl

/-- Encoding the instruction taken from a request over that request writes the code and nothing else. -/
theorem encodeOnto_instr (req : Request) (o : Op) :
    encodeOnto req (o.instr req) = { req with op := o.code } := by
  cases o <;> rfl

/-- A request with an operation's code decodes to that operation's instruction. -/
theorem decode_of_code {req : Request} {o : Op} (h : req.op = o.code) : decode req = .ok (o.instr req) :=
  (decode_eq_ok_iff _ _).2 ⟨o, h.symm, rfl⟩

/-- A code that is not reserved is an operation's (R41). -/
theorem Op.exists_code_eq {c : OpCode} (h : c.toNat ≤ 0x11) : ∃ o : Op, c = o.code := by
  cases hc : Op.ofCode c with
  | some o => exact ⟨o, (Op.code_of_ofCode hc).symm⟩
  | none => have := (Op.ofCode_eq_none_iff c).1 hc; omega

/-- Requests that agree on the ports an operation reads hold the same instruction of it (R40). -/
theorem Op.instr_eq_of_reads {o : Op} {req req' : Request}
    (h : ∀ p ∈ o.reads, req.portBits p = req'.portBits p) : o.instr req = o.instr req' := by
  cases o <;> simp_all [Op.reads, Request.portBits, Op.instr, BitVec.toNat_inj]

open Machine in
/-- The outcome of an instruction: the ports it drives, or the error it raises. -/
def Instr.result : Instr → Except ErrorKind OutPorts
  | .ibm2ieee a => .ok (driveQ (Machine.ibm2ieee a))
  | .ieee2ibm d => (Machine.ieee2ibm d).map driveR
  | .decomp a => .ok (driveFields (sign a) (expf a) (mant a) (tc8 (trueExponent a)))
  | .compose cs ce cm => .ok (driveR (pack cs ce cm))
  | .isZero a => .ok (driveP (isZeroWord a))
  | .isSubn a => .ok (driveP (isSubnormalWord a))
  | .toBool a => .ok (driveP (!isZeroWord a))
  | .normalize a => (normalizeWord a).map driveR
  | .zeroSubn a => .ok (driveR (zeroSubnormal a))
  | .abs a => .ok (driveR (absWord a))
  | .neg a => .ok (driveR (negWord a))
  | .add a b => (addWords a b).map driveR
  | .sub a b => (subWords a b).map driveR
  | .ldexp d n => (ldexpWord d n).map driveR
  | .frexp a => .ok (driveQX (frexpFraction a) (tc16 (frexpExponent a)))
  | .trunc a => .ok (driveZ (tc256 (truncInt a)))
  | .ceil a => .ok (driveZ (tc256 (ceilInt a)))
  | .floor a => .ok (driveZ (tc256 (floorInt a)))

end Sys2Proof

namespace Sys2Proof.Machine

/-- Concluding with a drive is concluding with the driven ports. -/
theorem State.conclude_map {α : Type} (s : State) (f : α → OutPorts) (res : Except ErrorKind α) :
    s.conclude id (res.map f) = s.conclude f res := by
  cases res <;> rfl

/-- An instruction concludes the state with its outcome. -/
theorem exec_eq_conclude (i : Instr) (s : State) : exec i s = .next (s.conclude id i.result) := by
  cases i with
  | ieee2ibm | normalize | add | sub | ldexp =>
    rw [Instr.result, State.conclude_map]
    rfl
  | _ => rfl

/-- A step at an operation's code concludes with the outcome of that operation's instruction. -/
theorem step_of_code {s : State} {o : Op} (h : s.inp.op = o.code) :
    step s = .next (s.conclude id (o.instr s.inp).result) :=
  (step_eq_exec (decode_of_code h)).trans (exec_eq_conclude _ s)

/-- A step that answers a next state ran some operation on the inputs. -/
theorem step_concludes {s t : State} (h : step s = .next t) :
    ∃ o : Op, s.inp.op = o.code ∧ t = s.conclude id (o.instr s.inp).result := by
  obtain ⟨i, hi, -⟩ := step_eq_next h
  obtain ⟨o, ho, -⟩ := (decode_eq_ok_iff _ _).1 hi
  rw [step_of_code ho.symm] at h
  exact ⟨o, ho.symm, by cases h; rfl⟩

end Sys2Proof.Machine
end

section
/-! SUPPORT. The port map (R40): what each datapath can raise, and the ports each instruction drives. -/

namespace Sys2Proof.Machine

/-- Re-encoding raises nothing but Overflow (R64). -/
theorem reencode_error {s : BitVec 1} {e mag : Nat} {k : ErrorKind}
    (h : reencode s e mag = .error k) : k = .overflow := by
  obtain ⟨_, _, hr⟩ | ⟨_, _, hr⟩ | ⟨_, hr⟩ := reencode_cases s e mag <;> rw [hr] at h <;> cases h
  rfl

/-- ADDCORE raises nothing but Overflow (R67). -/
theorem addCore_error {sa sb : BitVec 1} {ea ma eb mb : Nat} {k : ErrorKind}
    (h : addCore sa ea ma sb eb mb = .error k) : k = .overflow := by
  obtain ⟨_, -, ⟨-, hr⟩ | ⟨-, hr⟩⟩ := addCore_cases sa ea ma sb eb mb <;> rw [hr] at h
  · cases h
  · exact reencode_error h

/-- NORMALIZE of a word raises nothing but Underflow (R58). -/
theorem normalizeWord_error {a : IbmWord} {k : ErrorKind} (h : normalizeWord a = .error k) :
    k = .underflow := by
  unfold normalizeWord at h
  split at h
  · exact normalizeLoop_error _ _ _ _ _ h
  · cases h

/-- Mapping the value of an error union keeps its error. -/
theorem error_of_map {α β : Type} {f : α → β} {res : Except ErrorKind α} {k : ErrorKind}
    (h : res.map f = .error k) : res = .error k := by
  cases res with
  | ok v => cases h
  | error l => cases h; rfl

/-- An instruction raises only errors of its operation's "can raise" column (R40). -/
theorem result_error_mem_raises {i : Instr} {k : ErrorKind} (h : i.result = .error k) :
    k ∈ i.op.raises := by
  cases i with
  | ieee2ibm | ldexp => cases k <;> simp [Instr.op, Op.raises]
  | normalize => exact List.mem_singleton.2 (normalizeWord_error (error_of_map h))
  | add | sub => exact List.mem_singleton.2 (addCore_error (error_of_map h))
  | _ => cases h

/-- An error union that drives one word drives port `r` alone. -/
theorem driven_of_map_driveR {res : Except ErrorKind IbmWord} {o : OutPorts}
    (h : res.map driveR = .ok o) : o.driven = [.r] := by
  cases res with
  | ok w => cases h; rfl
  | error k => cases h

/-- An instruction that completes drives exactly the ports of its operation's "drives" column (R40). -/
theorem result_ok_driven {i : Instr} {o : OutPorts} (h : i.result = .ok o) :
    o.driven = i.op.drives := by
  cases i with
  | ieee2ibm | normalize | add | sub | ldexp => exact driven_of_map_driveR h
  | _ => cases h; rfl

/-- Every instruction concludes with a shape that R40 lets its operation give. -/
theorem conclude_agrees (s : State) (i : Instr) :
    (s.conclude id i.result).out.AgreesWith i.op := by
  cases h : i.result with
  | ok o => exact .inl ⟨rfl, show o.driven = i.op.drives from result_ok_driven h⟩
  | error k => exact .inr ⟨k, result_error_mem_raises h, rfl, rfl⟩

/-- A step at an operation's code answers a shape that R40 lets the operation give. -/
theorem step_agrees {s : State} {o : Op} (h : s.inp.op = o.code) :
    ∃ t, step s = .next t ∧ t.inp = s.inp ∧ t.out.AgreesWith o :=
  ⟨_, step_of_code h, step_inp (step_of_code h), by simpa using conclude_agrees s (o.instr s.inp)⟩

/-- Every error of a "can raise" column is the outcome of one of the operation's instructions (R40), at
the edges that 95_test_vectors.md gives. -/
theorem exists_result_error {o : Op} {k : ErrorKind} (h : k ∈ o.raises) :
    ∃ i : Instr, i.op = o ∧ i.result = .error k := by
  cases o with
  | ieee2ibm =>
    cases k with
    | invalidValue => exact ⟨.ieee2ibm 0x7FF0000000000001#64, rfl, rfl⟩
    | overflow => exact ⟨.ieee2ibm 0x4FB0000000000000#64, rfl, rfl⟩
    | underflow => exact ⟨.ieee2ibm 0x2E6FFFFFFFFFFFFF#64, rfl, rfl⟩
  | ldexp =>
    cases k with
    | invalidValue => exact ⟨.ldexp 0x7FF0000000000000#64 0xF830#16, rfl, rfl⟩
    | overflow => exact ⟨.ldexp 0x3FEFFFFFE0000001#64 0x00FC#16, rfl, rfl⟩
    | underflow => exact ⟨.ldexp 0x3FE0000000000000#64 0xFEE8#16, rfl, rfl⟩
  | normalize =>
    obtain rfl := List.mem_singleton.1 h
    exact ⟨.normalize 0x04000001#32, rfl, rfl⟩
  | add =>
    obtain rfl := List.mem_singleton.1 h
    exact ⟨.add 0x7FFFFFFF#32 0x7A100000#32, rfl, rfl⟩
  | sub =>
    obtain rfl := List.mem_singleton.1 h
    exact ⟨.sub 0x7FFFFFFF#32 0xFFFFFFFF#32, rfl, rfl⟩
  | _ => cases h

/-- An instruction whose outcome is an error raises it in the transaction that encodes it. -/
theorem exists_step_raises {i : Instr} {k : ErrorKind} (h : i.result = .error k) :
    ∃ s t, s.inp.op = i.op.code ∧ step s = .next t ∧ t.out.st = some k.status := by
  have hop : (State.reset.present (encode i)).inp.op = i.op.code := encodeOnto_op _ i
  refine ⟨_, _, hop, step_of_code hop, ?_⟩
  rw [State.present_inp, encode, Op.instr_encodeOnto, h]
  rfl

end Sys2Proof.Machine
end

section
/-! The statements on the encoding and on the port map. -/

namespace Sys2Proof.Machine

/-- Settles O1: the operation takes its ports back from the encoding, and its encoding over a request
writes only the code, which the request has. -/
theorem decodeEncodeRoundTrip : Obligations.DecodeEncodeRoundTrip := by
  refine ⟨fun bg i => ?_, fun req i h => ?_⟩
  · rw [decode_of_code (encodeOnto_op bg i), Op.instr_encodeOnto]
  · obtain ⟨o, ho, rfl⟩ := (decode_eq_ok_iff req i).1 h
    rw [encodeOnto_instr, ho]

/-- Settles O4: the decoder rejects exactly the reserved codes, and every other is an operation's. -/
theorem reservedCodesAreRefused : Obligations.ReservedCodesAreRefused := by
  refine fun s => ⟨fun h => step_eq_refused ((decode_eq_error_iff _ _).2 ⟨h, rfl⟩), fun h => ?_⟩
  obtain ⟨o, ho⟩ := Op.exists_code_eq h
  obtain ⟨t, hstep, hinp, ⟨hst, -⟩ | ⟨k, -, hst, -⟩⟩ := step_agrees ho
  all_goals exact ⟨t, hstep, hinp, by simp [hst]⟩

/-- Settles O5: an instruction concludes in a shape of its row, it is made of the ports read, and each
listed error has an instruction that raises it. -/
theorem operationsFollowThePortMap : Obligations.OperationsFollowThePortMap := by
  refine ⟨fun o s h => step_agrees h, fun o s u hs hu hreads => ?_, fun o k hk => ?_⟩
  · refine ⟨_, _, step_of_code hs, step_of_code hu, ?_⟩
    rw [Op.instr_eq_of_reads hreads]
    exact State.conclude_out_eq s u id _
  · obtain ⟨i, rfl, hi⟩ := exists_result_error hk
    exact exists_step_raises hi

end Sys2Proof.Machine
end

section
/-! SUPPORT. What the results on the ports satisfy: doubles without NaN, infinity or subnormal (R47), and
the ranges of the exponent and integer results (R57, R71, R77). -/

namespace Sys2Proof.Machine

@[simp] theorem dblExp_packDouble (s : BitVec 1) (e : BitVec 11) (f : BitVec 52) :
    dblExp (packDouble s e f) = e := by
  rw [dblExp, packDouble, BitVec.extractLsb'_append_eq_of_le (by decide)]
  exact BitVec.extractLsb'_append_eq_right

@[simp] theorem dblFrac_packDouble (s : BitVec 1) (e : BitVec 11) (f : BitVec 52) :
    dblFrac (packDouble s e f) = f :=
  BitVec.extractLsb'_append_eq_right

/-- A zero of either sign is an ordinary double. -/
theorem ordinaryDouble_zero (s : BitVec 1) : ordinaryDouble (packDouble s 0#11 0#52) := by
  simp [ordinaryDouble]

/-- A double with a biased exponent strictly between the two special ones is ordinary (R18). -/
theorem ordinaryDouble_of_exp {s : BitVec 1} {e : BitVec 11} {f : BitVec 52} (hpos : e.toNat ≠ 0)
    (hlt : e.toNat ≠ 2047) : ordinaryDouble (packDouble s e f) := by
  rw [ordinaryDouble, dblExp_packDouble]
  exact ⟨hlt, fun h => absurd h hpos⟩

/-- IBM2IEEE gives an ordinary double: the biased exponent lies in 743..1274 (R47). -/
theorem ordinaryDouble_ibm2ieee (a : IbmWord) : ordinaryDouble (ibm2ieee a) := by
  unfold ibm2ieee
  dsimp only
  split
  · exact ordinaryDouble_zero _
  · rename_i hm
    have hp := msb_le hm (mant a).isLt
    have he := (expf a).isLt
    exact ordinaryDouble_of_exp (by rw [BitVec.toNat_ofNat]; omega) (by rw [BitVec.toNat_ofNat]; omega)

/-- FREXP's fraction is an ordinary double: biased exponent 1022, or a zero (R71). -/
theorem ordinaryDouble_frexpFraction (a : IbmWord) : ordinaryDouble (frexpFraction a) := by
  unfold frexpFraction
  dsimp only
  split
  · exact ordinaryDouble_zero _
  · exact ordinaryDouble_of_exp (by decide) (by decide)

/-- FREXP's exponent lies in -279..252 (R71). -/
theorem frexpExponent_range (a : IbmWord) : -279 ≤ frexpExponent a ∧ frexpExponent a ≤ 252 := by
  unfold frexpExponent
  dsimp only
  split
  · decide
  · rename_i hm
    have hp := msb_le hm (mant a).isLt
    have he := (expf a).isLt
    omega

/-- The 16-bit exponent port holds FREXP's exponent without loss. -/
theorem toInt_tc16_frexpExponent (a : IbmWord) : (tc16 (frexpExponent a)).toInt = frexpExponent a := by
  obtain ⟨lo, hi⟩ := frexpExponent_range a
  exact BitVec.toInt_ofInt_eq_self (by decide) (by omega) (by omega)

/-- The 8-bit port `ft` holds the true exponent without loss (R57). -/
theorem toInt_tc8_trueExponent (a : IbmWord) :
    (tc8 (trueExponent a)).toInt = ((expf a).toNat : ℤ) - 64 := by
  have he := (expf a).isLt
  exact BitVec.toInt_ofInt_eq_self (by decide) (by simp [trueExponent, exponentBias]; omega)
    (by simp [trueExponent, exponentBias]; omega)

/-- The magnitude's integer part, rounded up when a fraction is dropped, stays within the largest
magnitude (R77). -/
theorem intParts_bound (a : IbmWord) :
    (intParts a).mag + (if (intParts a).rem then 1 else 0) ≤ (2 ^ 24 - 1) * 2 ^ 228 := by
  have hm := (mant a).isLt
  have he := (expf a).isLt
  obtain ⟨_, h⟩ | ⟨_, h⟩ | ⟨_, _, h⟩ := intParts_cases a <;> simp only [h]
  · rw [Nat.shiftLeft_eq, if_neg Bool.false_ne_true, Nat.add_zero]
    exact Nat.mul_le_mul (by omega) (Nat.pow_le_pow_right (by decide) (by omega))
  · split <;> decide
  · have hshift : (mant a).toNat >>> (4 * (70 - (expf a).toNat)) ≤ (mant a).toNat :=
      Nat.shiftRight_le _ _
    split <;> omega

/-- An integer within the largest magnitude is held by the 256-bit port `z` without loss (R77). -/
theorem toInt_tc256_of_bound {i : ℤ} (h : |i| ≤ (2 ^ 24 - 1) * 2 ^ 228) : (tc256 i).toInt = i := by
  obtain ⟨lo, hi⟩ := abs_le.1 h
  exact BitVec.toInt_ofInt_eq_self (by decide) (by omega) (by omega)

/-- Truncation stays within the magnitude (R74, R77). -/
theorem abs_truncInt_le (a : IbmWord) : |truncInt a| ≤ (2 ^ 24 - 1) * 2 ^ 228 := by
  have h := intParts_bound a
  unfold truncInt signedMag
  rw [abs_le]
  split_ifs at h ⊢ <;> omega

/-- The ceiling is at most one above a magnitude with a fraction (R75, R77). -/
theorem abs_ceilInt_le (a : IbmWord) : |ceilInt a| ≤ (2 ^ 24 - 1) * 2 ^ 228 := by
  have h := intParts_bound a
  unfold ceilInt
  rw [abs_le]
  dsimp only
  split_ifs at h ⊢ <;> omega

/-- The floor is at most one below a negative magnitude with a fraction (R76, R77). -/
theorem abs_floorInt_le (a : IbmWord) : |floorInt a| ≤ (2 ^ 24 - 1) * 2 ^ 228 := by
  have h := intParts_bound a
  unfold floorInt
  rw [abs_le]
  dsimp only
  split_ifs at h ⊢ <;> omega

end Sys2Proof.Machine
end

section
/-! SUPPORT. An output bundle is legal when its shape is one of R40's and what it carries lies in range:
one lemma for each kind of result. -/

namespace Sys2Proof.Machine

/-- A bundle of a shape of R40 that carries no double, exponent, integer or true exponent is legal. -/
theorem legal_of_no_ranged_port {o : OutPorts} {op : Op} (hshape : o.AgreesWith op) (hq : o.q = none)
    (hx : o.x = none) (hz : o.z = none) (hft : o.ft = none) : o.Legal where
  shape := .inr ⟨op, hshape⟩
  double := by simp [hq]
  exponent := by simp [hx]
  integer := by simp [hz]
  trueExp := by simp [hft]

/-- A bundle that carries a double alone is legal when the double is ordinary (R47). -/
theorem legal_complete_driveQ {s : State} {q : Double64} {op : Op}
    (hshape : (s.complete (driveQ q)).out.AgreesWith op) (hq : ordinaryDouble q) :
    (s.complete (driveQ q)).out.Legal where
  shape := .inr ⟨op, hshape⟩
  double := by rintro _ ⟨⟩; exact hq
  exponent := by rintro _ ⟨⟩
  integer := by rintro _ ⟨⟩
  trueExp := by rintro _ _ ⟨⟩

/-- A bundle that carries a double and an exponent is legal when both lie in range (R71). -/
theorem legal_complete_driveQX {s : State} {q : Double64} {x : ExpWord} {op : Op}
    (hshape : (s.complete (driveQX q x)).out.AgreesWith op) (hq : ordinaryDouble q)
    (hx : -279 ≤ x.toInt ∧ x.toInt ≤ 252) : (s.complete (driveQX q x)).out.Legal where
  shape := .inr ⟨op, hshape⟩
  double := by rintro _ ⟨⟩; exact hq
  exponent := by rintro _ ⟨⟩; exact hx
  integer := by rintro _ ⟨⟩
  trueExp := by rintro _ _ ⟨⟩

/-- A bundle that carries an integer is legal when the integer lies in R77's range. -/
theorem legal_complete_driveZ {s : State} {i : ℤ} {op : Op}
    (hshape : (s.complete (driveZ (tc256 i))).out.AgreesWith op)
    (hi : |i| ≤ (2 ^ 24 - 1) * 2 ^ 228) : (s.complete (driveZ (tc256 i))).out.Legal where
  shape := .inr ⟨op, hshape⟩
  double := by rintro _ ⟨⟩
  exponent := by rintro _ ⟨⟩
  integer := by rintro _ ⟨⟩; rwa [toInt_tc256_of_bound hi]
  trueExp := by rintro _ _ ⟨⟩

/-- A bundle that carries the four fields is legal when the true exponent is the field's (R57). -/
theorem legal_complete_driveFields {s : State} {fs : BitVec 1} {fe : BitVec 7} {fm : BitVec 24}
    {ft : BitVec 8} {op : Op} (hshape : (s.complete (driveFields fs fe fm ft)).out.AgreesWith op)
    (hft : ft.toInt = (fe.toNat : ℤ) - 64) : (s.complete (driveFields fs fe fm ft)).out.Legal where
  shape := .inr ⟨op, hshape⟩
  double := by rintro _ ⟨⟩
  exponent := by rintro _ ⟨⟩
  integer := by rintro _ ⟨⟩
  trueExp := by rintro _ _ ⟨⟩ ⟨⟩; exact hft

/-- A bundle that carries a word, or an error's status alone, is legal. -/
theorem legal_conclude_driveR {s : State} {res : Except ErrorKind IbmWord} {op : Op}
    (hshape : (s.conclude driveR res).out.AgreesWith op) : (s.conclude driveR res).out.Legal := by
  cases res <;> exact legal_of_no_ranged_port hshape rfl rfl rfl rfl

/-- Whatever instruction a state is concluded with, its outputs are legal. -/
theorem conclude_legal (s : State) (i : Instr) : (s.conclude id i.result).out.Legal := by
  have hshape := conclude_agrees s i
  cases i with
  | ibm2ieee a => exact legal_complete_driveQ hshape (ordinaryDouble_ibm2ieee a)
  | frexp a =>
    exact legal_complete_driveQX hshape (ordinaryDouble_frexpFraction a)
      (by rw [toInt_tc16_frexpExponent]; exact frexpExponent_range a)
  | trunc a => exact legal_complete_driveZ hshape (abs_truncInt_le a)
  | ceil a => exact legal_complete_driveZ hshape (abs_ceilInt_le a)
  | floor a => exact legal_complete_driveZ hshape (abs_floorInt_le a)
  | decomp a => exact legal_complete_driveFields hshape (toInt_tc8_trueExponent a)
  | ieee2ibm | normalize | add | sub | ldexp =>
    rw [Instr.result, State.conclude_map] at hshape ⊢
    exact legal_conclude_driveR hshape
  | compose | isZero | isSubn | toBool | zeroSubn | abs | neg =>
    exact legal_of_no_ranged_port hshape rfl rfl rfl rfl

/-- Settles O11: a step concludes with some instruction, so the new outputs are legal whatever stood on
the ports before. -/
theorem stepKeepsLegalOutputs : Obligations.StepKeepsLegalOutputs := by
  intro s t _ h
  obtain ⟨o, -, rfl⟩ := step_concludes h
  exact conclude_legal s (o.instr s.inp)

end Sys2Proof.Machine
end

section
/-! SUPPORT. What a script line of one transaction does (R44), both ways: what a line that ran did, and
what a line whose transaction completes leaves. -/

namespace Sys2Proof

/-- An operation reads each port once (R40). -/
theorem Op.reads_nodup (o : Op) : o.reads.Nodup := by cases o <;> decide

end Sys2Proof

namespace Sys2Proof.Machine

/-- On OK the host reads one value for each port of the "drives" column (R40). -/
theorem length_driven_values {out : OutPorts} {o : Op} (h : out.AgreesWith o)
    (hok : out.st = some .ok) : (o.drives.filterMap out.value).length = o.drives.length := by
  obtain ⟨-, hdriven⟩ | ⟨k, -, hst, -⟩ := h
  · rw [List.length_filterMap_eq_countP, List.countP_eq_length, ← hdriven]
    exact fun port hport => (List.mem_filter.1 hport).2
  · exact absurd (Option.some.inj (hst.symm.trans hok)) k.status_ne_ok

/-- A transaction of an operation's code that answers a next state answers a shape of its row (R40). -/
theorem transact_agrees {s t : State} {req : Request} {o : Op} (hop : req.op = o.code)
    (h : s.transact req = .next t) : t.out.AgreesWith o := by
  obtain ⟨t', ht', -, hshape⟩ := step_agrees (s := s.present req) hop
  obtain rfl : t' = t := Host.Outcome.next.inj (ht'.symm.trans h)
  exact hshape

/-- A line that ran was one transaction of its assembled request, and bound its destinations exactly if
that gave OK (R44). -/
theorem runOperation_ok {h h' : HostState} {l : Line} {o : Op} {keep : List PortValue → List PortValue}
    (hrun : runOperation h l o keep = .ok h') :
    ∃ req, assemble h.env o.reads l.operands { h.machine.inp with op := o.code } = .ok req ∧
      h.machine.transact req = .next h'.machine ∧
      (h'.machine.out.st = some .ok →
        bindAll l.dests (keep (o.drives.filterMap h'.machine.out.value)) h.env = .ok h'.env) ∧
      (h'.machine.out.st ≠ some .ok → h'.env = h.env) := by
  unfold runOperation at hrun
  split at hrun
  · cases hrun
  rename_i req hreq
  refine ⟨req, hreq, ?_⟩
  split at hrun
  case h_2 | h_3 => cases hrun
  rename_i t ht
  split_ifs at hrun with hst hok
  · cases hbind : bindAll l.dests (keep (o.drives.filterMap t.out.value)) h.env <;>
      rw [hbind] at hrun <;> cases hrun
    exact ⟨ht, fun _ => hbind, fun hne => absurd hok hne⟩
  · cases hrun
    exact ⟨ht, fun h => absurd h hok, fun _ => rfl⟩

/-- A line that states no status and whose transaction completes binds what is kept of the driven
values (R44). -/
theorem runOperation_of_completes {h : HostState} {l : Line} {o : Op} {req : Request} {t : State}
    {env : Bindings} {keep : List PortValue → List PortValue}
    (hreq : assemble h.env o.reads l.operands { h.machine.inp with op := o.code } = .ok req)
    (ht : h.machine.transact req = .next t) (hst : l.status = none) (hok : t.out.st = some .ok)
    (hbind : bindAll l.dests (keep (o.drives.filterMap t.out.value)) h.env = .ok env) :
    runOperation h l o keep = .ok ⟨env, t⟩ := by
  simp [runOperation, hreq, ht, hst, hok, hbind, statusAgrees, Except.map]

end Sys2Proof.Machine
end

section
/-! SUPPORT. The expansions of R45: the four-byte buffer on a line, and the operations on one word. -/

namespace Sys2Proof.Machine

/-- A byte written as an integer stands for itself (R45). -/
theorem byteBits_byte (env : Bindings) (b : Byte) : byteBits env (.int b.toNat) = .ok b.toNat := by
  have := b.isLt
  simp only [byteBits]
  rw [if_pos (by omega), Int.toNat_natCast]

/-- The word of four bytes is the word of their big-endian sum (R29). -/
theorem fromBytes_eq_ofNat (b0 b1 b2 b3 : Byte) : fromBytes b0 b1 b2 b3 = BitVec.ofNat 32
    (b0.toNat * 2 ^ 24 + b1.toNat * 2 ^ 16 + b2.toNat * 2 ^ 8 + b3.toNat) := by
  rw [← fromBytes_toNat, BitVec.ofNat_toNat, BitVec.setWidth_eq]

/-- A byte of a word as the number it is a digit of. -/
theorem byteAt_eq_ofNat (w : IbmWord) (i : Nat) :
    w.extractLsb' i 8 = BitVec.ofNat 8 (w.toNat / 2 ^ i) := by
  rw [← BitVec.toNat_inj, byteAt_toNat, BitVec.toNat_ofNat]

/-- FROMBYTES binds the word of its four bytes (R45). -/
theorem runFromBytes_bytes (h : HostState) (v : VarName) (head : Head) (st : Option Status)
    (b0 b1 b2 b3 : Byte) :
    runFromBytes h ⟨[v], head, [.int b0.toNat, .int b1.toNat, .int b2.toNat, .int b3.toNat], st⟩ =
      .ok ⟨(v, ⟨32, fromBytes b0 b1 b2 b3⟩) :: h.env, h.machine⟩ := by
  simp [runFromBytes, byteBits_byte, bindAll, Except.map]

/-- TOBYTES binds the four bytes of its word in buffer order (R45). -/
theorem runToBytes_word (h : HostState) (v0 v1 v2 v3 : VarName) (head : Head) (st : Option Status)
    (w : IbmWord) :
    runToBytes h ⟨[v0, v1, v2, v3], head, [.word w], st⟩ =
      .ok ⟨(v3, ⟨8, w.extractLsb' 0 8⟩) :: (v2, ⟨8, w.extractLsb' 8 8⟩) ::
        (v1, ⟨8, w.extractLsb' 16 8⟩) :: (v0, ⟨8, w.extractLsb' 24 8⟩) :: h.env, h.machine⟩ := by
  simp [runToBytes, operandBits, toBytes, bindAll, Except.map]

/-- A word literal stands on port `a` as it is (R44). -/
theorem assemble_word (env : Bindings) (w : IbmWord) (req : Request) :
    assemble env [.a] [.word w] req = .ok { req with a := w } := by
  simp [assemble, operandBits, Request.set]

/-- The status is on no result port. -/
@[simp] theorem OutPorts.value_with_st (out : OutPorts) (st : Option Status) :
    ({ out with st := st } : OutPorts).value = out.value := by
  funext port
  cases port <;> rfl

/-- The request of an operation on one word over what stands on the other ports. -/
def wordRequest (bg : Request) (o : Op) (w : IbmWord) : Request := { bg with op := o.code, a := w }

/-- A line whose head expands to an operation is that operation's line with what the head keeps (R45). -/
theorem runLine_short {h : HostState} {al : Alias} {o : Op} (hop : al.op = some o) (ds : List VarName)
    (os : List Operand) (st : Option Status) :
    runLine h ⟨ds, .short al, os, st⟩ = runOperation h ⟨ds, .short al, os, st⟩ o (aliasKeeps al) := by
  simp only [runLine, hop]

/-- A line on one word whose head expands to an operation that completes binds the one value that the
head keeps (R45). -/
theorem runLine_short_word {h : HostState} {v : VarName} {w : IbmWord} {al : Alias} {o : Op}
    {out : OutPorts} {x : PortValue} (hop : al.op = some o) (hreads : o.reads = [.a])
    (hres : (o.instr (wordRequest h.machine.inp o w)).result = .ok out)
    (hkeep : aliasKeeps al (o.drives.filterMap out.value) = [x]) :
    runLine h ⟨[v], .short al, [.word w], none⟩ =
      .ok ⟨(v, x) :: h.env, (h.machine.present (wordRequest h.machine.inp o w)).complete out⟩ := by
  have ht : h.machine.transact (wordRequest h.machine.inp o w) =
      .next ((h.machine.present (wordRequest h.machine.inp o w)).complete out) :=
    (step_of_code (o := o) rfl).trans (by rw [State.present_inp, hres]; rfl)
  rw [runLine_short hop]
  refine runOperation_of_completes (hreads ▸ assemble_word ..) ht rfl rfl ?_
  rw [State.complete_out, OutPorts.value_with_st, hkeep]
  rfl

/-- The sign bit from its number (R14). -/
theorem sign_eq_ofNat (w : IbmWord) : sign w = BitVec.ofNat 1 (fieldS w) := by
  rw [← sign_toNat, BitVec.ofNat_toNat, BitVec.setWidth_eq]

/-- The exponent field from its number (R14). -/
theorem expf_eq_ofNat (w : IbmWord) : expf w = BitVec.ofNat 7 (fieldE w) := by
  rw [← expf_toNat, BitVec.ofNat_toNat, BitVec.setWidth_eq]

/-- The mantissa from its number (R14). -/
theorem mant_eq_ofNat (w : IbmWord) : mant w = BitVec.ofNat 24 (fieldM w) := by
  rw [← mant_toNat, BitVec.ofNat_toNat, BitVec.setWidth_eq]

/-- ISSUBN's bit inverted says that the word is zero or has a non-zero top digit (R17, R45). -/
theorem not_isSubnormalWord_bit (w : IbmWord) : ~~~BitVec.ofBool (isSubnormalWord w) =
    if fieldM w = 0 ∨ 2 ^ 20 ≤ fieldM w then 1#1 else 0#1 := by
  have hiff := isNormalizedWord_iff w
  rw [isNormalizedWord] at hiff
  cases hsub : isSubnormalWord w with
  | true => rw [if_neg (mt hiff.2 (by simp [hsub]))]; rfl
  | false => rw [if_pos (hiff.1 (by simp [hsub]))]; rfl

/-- A line of FROMBYTES that states no status. -/
theorem runLine_fromBytes (h : HostState) (ds : List VarName) (os : List Operand) :
    runLine h ⟨ds, .short .fromBytes, os, none⟩ =
      runFromBytes h ⟨ds, .short .fromBytes, os, none⟩ := rfl

/-- A line of TOBYTES that states no status. -/
theorem runLine_toBytes (h : HostState) (ds : List VarName) (os : List Operand) :
    runLine h ⟨ds, .short .toBytes, os, none⟩ = runToBytes h ⟨ds, .short .toBytes, os, none⟩ := rfl

end Sys2Proof.Machine
end

section
/-! The statements on scripts. -/

namespace Sys2Proof.Machine

/-- Settles O53: the assembled request has each operand in its place, and binding is one for one with
the driven values, as many as the operation drives ports. -/
theorem scriptLineIsOneTransaction : Obligations.ScriptLineIsOneTransaction := by
  intro h h' l o hhead hrun
  have hop : runOperation h l o id = .ok h' := by simpa [runLine, hhead] using hrun
  obtain ⟨req, hreq, ht, hbind, hnone⟩ := runOperation_ok hop
  obtain ⟨hcode, hlen⟩ := assemble_ok hreq
  refine ⟨hlen, ⟨req, hcode, ht, fun j p x => assemble_places (Op.reads_nodup o) hreq⟩, fun hok => ?_,
    hnone⟩
  obtain ⟨hcount, henv⟩ := bindAll_ok (hbind hok)
  exact ⟨hcount.trans (length_driven_values (transact_agrees hcode ht) hok), henv⟩

/-- Settles O54: the buffer's bytes as digits of the word, the four mnemonics that rename an operation,
and the field or bit kept of DECOMP and ISSUBN. -/
theorem aliasesExpand : Obligations.AliasesExpand := by
  refine ⟨fun h v b0 b1 b2 b3 => ?_, fun h v0 v1 v2 v3 w => ?_, fun h ds os st => ⟨rfl, rfl, rfl, rfl⟩,
    fun h v w => ?_⟩
  · rw [runLine_fromBytes, runFromBytes_bytes, fromBytes_eq_ofNat]
  · rw [runLine_toBytes, runToBytes_word, byteAt_eq_ofNat w 0, byteAt_eq_ofNat w 8,
      byteAt_eq_ofNat w 16, byteAt_eq_ofNat w 24, pow_zero, Nat.div_one]
  · rw [← sign_eq_ofNat, ← expf_eq_ofNat, ← mant_eq_ofNat, ← not_isSubnormalWord_bit]
    exact ⟨_, _, runLine_short_word rfl rfl rfl rfl, runLine_short_word rfl rfl rfl rfl,
      runLine_short_word rfl rfl rfl rfl, runLine_short_word rfl rfl rfl rfl⟩

end Sys2Proof.Machine
end

section
/-! SUPPORT. A double by its fields as numbers, and its value by the biased exponent (R18). -/

namespace Sys2Proof.Machine

@[simp] theorem dblSign_packDouble (s : BitVec 1) (e : BitVec 11) (f : BitVec 52) :
    dblSign (packDouble s e f) = s := by
  rw [dblSign, packDouble, BitVec.append_assoc]
  exact BitVec.extractLsb'_append_eq_left

theorem doubleS_lt (d : Double64) : doubleS d < 2 := dblSign_toNat d ▸ (dblSign d).isLt
theorem doubleE_lt (d : Double64) : doubleE d < 2 ^ 11 := Nat.mod_lt _ (by decide)
theorem doubleF_lt (d : Double64) : doubleF d < 2 ^ 52 := Nat.mod_lt _ (by decide)

/-- A double is the double of its fields. -/
theorem doubleOf_fields (d : Double64) : doubleOf (doubleS d) (doubleE d) (doubleF d) = d := by
  have hd := d.isLt
  apply BitVec.eq_of_toNat_eq
  simp only [doubleOf, doubleS, doubleE, doubleF, BitVec.toNat_ofNat]
  omega

/-- Doubles agree when their fields do. -/
theorem double_ext {d q : Double64} (hs : dblSign d = dblSign q) (he : doubleE d = doubleE q)
    (hf : doubleF d = doubleF q) : d = q := by
  rw [← doubleOf_fields d, ← doubleOf_fields q, he, hf, ← dblSign_toNat, ← dblSign_toNat, hs]

/-- An infinity and a NaN have no value (R18). -/
theorem doubleVal_of_special {d : Double64} (h : doubleE d = 2047) : doubleVal d = none := by
  rw [doubleVal, dblExp_toNat, if_pos h]

/-- A zero or a subnormal double is a multiple of `2^-1074` (R18). -/
theorem doubleVal_of_exp_zero {d : Double64} (h : doubleE d = 0) :
    doubleVal d = some (signQ (dblSign d) * (doubleF d : ℚ) * 2 ^ (-1074 : ℤ)) := by
  rw [doubleVal, dblExp_toNat, dblFrac_toNat, if_neg (by omega), if_pos h]

/-- Any other double has a 53-bit significand (R18). -/
theorem doubleVal_of_normal {d : Double64} (hpos : doubleE d ≠ 0) (hlt : doubleE d ≠ 2047) :
    doubleVal d = some (signQ (dblSign d) * ((2 ^ 52 + doubleF d : ℕ) : ℚ)
      * 2 ^ ((doubleE d : ℤ) - 1075)) := by
  rw [doubleVal, dblExp_toNat, dblFrac_toNat, if_neg hlt, if_neg hpos]

/-- The magnitude of a signed product. -/
theorem abs_signQ_mul (s : BitVec 1) (n : ℕ) (i : ℤ) :
    |signQ s * (n : ℚ) * 2 ^ i| = n * 2 ^ i := by
  have hmag : (0 : ℚ) ≤ n * 2 ^ i := by positivity
  have hsign : |signQ s| = 1 := by unfold signQ; split <;> norm_num
  rw [mul_assoc, abs_mul, hsign, one_mul, abs_of_nonneg hmag]

/-- A signed product of a non-zero significand is negative exactly when its sign bit is set. -/
theorem signQ_mul_neg_iff (s : BitVec 1) {n : ℕ} (hn : n ≠ 0) (i : ℤ) :
    signQ s * (n : ℚ) * 2 ^ i < 0 ↔ s = 1#1 := by
  have hmag : (0 : ℚ) < n * 2 ^ i := by positivity
  rw [mul_assoc]
  unfold signQ
  split <;> rename_i h
  · simp only [h, iff_true]; linarith
  · simp only [h, iff_false]; linarith

/-- Two bits are equal when they are set together. -/
theorem bit_ext : ∀ {s t : BitVec 1}, (s = 1#1 ↔ t = 1#1) → s = t := by decide

/-- Two 53-bit significands times powers of two that agree are the same significand and power. -/
theorem significand_unique {n m : ℕ} {i j : ℤ} (hn : 2 ^ 52 ≤ n) (hn' : n < 2 ^ 53)
    (hm : 2 ^ 52 ≤ m) (hm' : m < 2 ^ 53) (h : (n : ℚ) * 2 ^ i = m * 2 ^ j) : n = m ∧ i = j := by
  have le_of_eq : ∀ {n m : ℕ} {i j : ℤ}, 2 ^ 52 ≤ n → m < 2 ^ 53 →
      (n : ℚ) * 2 ^ i = m * 2 ^ j → i ≤ j := by
    intro n m i j hn hm h
    have hn : (2 : ℚ) ^ (52 : ℤ) ≤ n := by exact_mod_cast hn
    have hm : (m : ℚ) < 2 ^ (53 : ℤ) := by exact_mod_cast hm
    have hlt : (2 : ℚ) ^ (52 + i) < 2 ^ (53 + j) := by
      calc (2 : ℚ) ^ (52 + i) = 2 ^ (52 : ℤ) * 2 ^ i := zpow_add₀ two_ne_zero 52 i
        _ ≤ n * 2 ^ i := by gcongr
        _ = m * 2 ^ j := h
        _ < 2 ^ (53 : ℤ) * 2 ^ j := by gcongr
        _ = 2 ^ (53 + j) := (zpow_add₀ two_ne_zero 53 j).symm
    have := (zpow_lt_zpow_iff_right₀ one_lt_two).1 hlt
    omega
  obtain rfl : i = j := le_antisymm (le_of_eq hn hm' h) (le_of_eq hm hn' h.symm)
  exact ⟨by exact_mod_cast mul_right_cancel₀ (zpow_ne_zero i two_ne_zero) h, rfl⟩

/-- Two normal doubles of equal value are the same double. -/
theorem double_eq_of_doubleVal_eq {d q : Double64} {x : ℚ} (hd : doubleVal d = some x)
    (hq : doubleVal q = some x) (hd0 : doubleE d ≠ 0) (hq0 : doubleE q ≠ 0) : d = q := by
  have hd' : doubleE d ≠ 2047 := fun h => by simp [doubleVal_of_special h] at hd
  have hq' : doubleE q ≠ 2047 := fun h => by simp [doubleVal_of_special h] at hq
  rw [doubleVal_of_normal hd0 hd', Option.some.injEq] at hd
  rw [doubleVal_of_normal hq0 hq', Option.some.injEq] at hq
  have hdF := doubleF_lt d
  have hqF := doubleF_lt q
  have hmag : |signQ (dblSign d) * ((2 ^ 52 + doubleF d : ℕ) : ℚ) * 2 ^ ((doubleE d : ℤ) - 1075)| =
      |signQ (dblSign q) * ((2 ^ 52 + doubleF q : ℕ) : ℚ) * 2 ^ ((doubleE q : ℤ) - 1075)| := by
    rw [hd, hq]
  rw [abs_signQ_mul, abs_signQ_mul] at hmag
  obtain ⟨hsig, hexp⟩ := significand_unique (by omega) (by omega) (by omega) (by omega) hmag
  have hsign : dblSign d = 1#1 ↔ dblSign q = 1#1 := by
    rw [← signQ_mul_neg_iff (dblSign d) (n := 2 ^ 52 + doubleF d) (by omega), hd, ← hq,
      signQ_mul_neg_iff _ (by omega)]
  exact double_ext (bit_ext hsign) (by omega) (by omega)

end Sys2Proof.Machine
end

section
/-! SUPPORT. IBM2IEEE by the fields of the word (R46) and by its value (R47). -/

namespace Sys2Proof.Machine

theorem ibm2ieee_of_zero {a : IbmWord} (h : fieldM a = 0) :
    ibm2ieee a = packDouble (sign a) 0#11 0#52 := by
  simp only [ibm2ieee, mant_toNat, if_pos h]

theorem ibm2ieee_of_nonzero {a : IbmWord} (h : fieldM a ≠ 0) :
    ibm2ieee a = packDouble (sign a) (BitVec.ofNat 11 (4 * fieldE a + msb (fieldM a) + 743))
      (alignedFraction (fieldM a)) := by
  simp only [ibm2ieee, mant_toNat, expf_toNat, if_neg h]

/-- The sign bit is copied, of a zero word too (R46). -/
theorem dblSign_ibm2ieee (a : IbmWord) : dblSign (ibm2ieee a) = sign a := by
  by_cases h : fieldM a = 0
  · rw [ibm2ieee_of_zero h, dblSign_packDouble]
  · rw [ibm2ieee_of_nonzero h, dblSign_packDouble]

theorem doubleS_ibm2ieee (a : IbmWord) : doubleS (ibm2ieee a) = fieldS a := by
  rw [← dblSign_toNat, dblSign_ibm2ieee, sign_toNat]

theorem doubleE_ibm2ieee {a : IbmWord} (h : fieldM a ≠ 0) :
    doubleE (ibm2ieee a) = 4 * fieldE a + msb (fieldM a) + 743 := by
  have hp := msb_le h (fieldM_lt a)
  have he := fieldE_lt a
  rw [← dblExp_toNat, ibm2ieee_of_nonzero h, dblExp_packDouble, BitVec.toNat_ofNat]
  omega

theorem doubleF_ibm2ieee {a : IbmWord} (h : fieldM a ≠ 0) :
    doubleF (ibm2ieee a) = fieldM a * 2 ^ (52 - msb (fieldM a)) - 2 ^ 52 := by
  rw [← dblFrac_toNat, ibm2ieee_of_nonzero h, dblFrac_packDouble]
  exact (alignedFraction_toNat h (fieldM_lt a)).1

/-- The significand is the mantissa with its leading 1 moved to bit 52 (R46). -/
theorem significand_ibm2ieee {a : IbmWord} (h : fieldM a ≠ 0) :
    2 ^ 52 + doubleF (ibm2ieee a) = fieldM a * 2 ^ (52 - msb (fieldM a)) := by
  have hlo := (alignedFraction_toNat h (fieldM_lt a)).2.1
  rw [doubleF_ibm2ieee h]
  omega

/-- A zero word gives a double of the same sign with nothing below it (R46). -/
theorem doubleE_doubleF_ibm2ieee_of_zero {a : IbmWord} (h : fieldM a = 0) :
    doubleE (ibm2ieee a) = 0 ∧ doubleF (ibm2ieee a) = 0 := by
  rw [← dblExp_toNat, ← dblFrac_toNat, ibm2ieee_of_zero h, dblExp_packDouble, dblFrac_packDouble]
  exact ⟨rfl, rfl⟩

/-- A non-zero word's biased exponent lies in 743..1274 (R47). -/
theorem doubleE_ibm2ieee_range {a : IbmWord} (h : fieldM a ≠ 0) :
    743 ≤ doubleE (ibm2ieee a) ∧ doubleE (ibm2ieee a) ≤ 1274 := by
  have hp := msb_le h (fieldM_lt a)
  have he := fieldE_lt a
  rw [doubleE_ibm2ieee h]
  omega

/-- The 24 bits of a mantissa leave the low 29 fraction bits zero (R47). -/
theorem doubleF_ibm2ieee_mod (a : IbmWord) : doubleF (ibm2ieee a) % 2 ^ 29 = 0 := by
  by_cases h : fieldM a = 0
  · rw [(doubleE_doubleF_ibm2ieee_of_zero h).2, Nat.zero_mod]
  · have hp := msb_le h (fieldM_lt a)
    have hpow : 2 ^ 29 ∣ 2 ^ (52 - msb (fieldM a)) := pow_dvd_pow 2 (by omega)
    rw [doubleF_ibm2ieee h]
    have hbit : 2 ^ 29 ∣ 2 ^ 52 := pow_dvd_pow 2 (by decide)
    exact Nat.mod_eq_zero_of_dvd (Nat.dvd_sub (hpow.mul_left _) hbit)

/-- IBM2IEEE is exact (R47). -/
theorem doubleVal_ibm2ieee (a : IbmWord) : doubleVal (ibm2ieee a) = some (val a) := by
  by_cases h : fieldM a = 0
  · obtain ⟨hE, hF⟩ := doubleE_doubleF_ibm2ieee_of_zero h
    rw [doubleVal_of_exp_zero hE, hF, (val_eq_zero_iff a).2 h]
    simp
  · obtain ⟨hlo, hhi⟩ := doubleE_ibm2ieee_range h
    have hp := msb_le h (fieldM_lt a)
    have hexp : ((52 - msb (fieldM a) : ℕ) : ℤ) +
        (((4 * fieldE a + msb (fieldM a) + 743 : ℕ) : ℤ) - 1075) = 4 * (fieldE a : ℤ) - 280 := by omega
    rw [doubleVal_of_normal (by omega) (by omega), significand_ibm2ieee h, dblSign_ibm2ieee,
      doubleE_ibm2ieee h, val, mant_toNat, expf_toNat, Nat.cast_mul, Nat.cast_pow, Nat.cast_ofNat,
      ← zpow_natCast, mul_assoc, mul_assoc, ← zpow_add₀ two_ne_zero, hexp, ← mul_assoc]

end Sys2Proof.Machine
end

section
/-! The statements on IBM2IEEE. -/

namespace Sys2Proof.Machine

/-- Settles O18: the fields of the double, with the leading 1 at `msb`. -/
theorem ibm2ieeeResult : Obligations.Ibm2ieeeResult := by
  refine ⟨fun req => decode_of_code (o := .ibm2ieee) rfl, fun a s => ?_⟩
  refine ⟨_, ibm2ieee a, rfl, rfl, rfl, fun h => ?_, fun h => ?_⟩
  · obtain ⟨hE, hF⟩ := doubleE_doubleF_ibm2ieee_of_zero h
    rw [← doubleOf_fields (ibm2ieee a), doubleS_ibm2ieee, hE, hF]
  · obtain ⟨hlo, hhi⟩ := msb_spec h
    refine ⟨msb (fieldM a), hlo, hhi, ?_⟩
    rw [← doubleS_ibm2ieee, ← doubleE_ibm2ieee h, ← doubleF_ibm2ieee h, doubleOf_fields]

/-- Settles O19: value, sign, fraction and range by the fields; the example pair by evaluating the
conversion. -/
theorem ibm2ieeeIsExact : Obligations.Ibm2ieeeIsExact := by
  refine ⟨fun a s => ⟨_, _, rfl, rfl, rfl, doubleVal_ibm2ieee a, doubleS_ibm2ieee a,
    doubleF_ibm2ieee_mod a, doubleE_ibm2ieee_range⟩, fun s => ?_⟩
  have hq : ibm2ieee 0x40000001#32 = ibm2ieee 0x3B100000#32 := by decide
  exact congrArg (fun q => Host.Outcome.next (s.complete (driveQ q))) hq

end Sys2Proof.Machine
end

section
/-! SUPPORT. ENC by the bits (R48) and by the value it encodes (R48, R50): dropping `k` bits of a
significand truncates its magnitude by less than a unit in the last place of the word. -/

namespace Sys2Proof.Machine

/-- A transaction that completes with one word puts that word's bundle on the ports (R40). -/
theorem State.conclude_driveR_ok (s : State) (w : IbmWord) :
    (s.conclude driveR (.ok w)).out = completesWith w := rfl

/-- A transaction that raises puts the error's bundle on the ports (R26). -/
theorem State.conclude_driveR_error (s : State) (k : ErrorKind) :
    (s.conclude driveR (.error k)).out = raisesKind k := rfl

/-- The ports show a completed word exactly when the datapath gave that word. -/
theorem State.conclude_driveR_out_iff (s : State) (res : Except ErrorKind IbmWord) (w : IbmWord) :
    (s.conclude driveR res).out = completesWith w ↔ res = .ok w := by
  cases res with
  | ok v =>
    rw [State.conclude_driveR_ok]
    simp [completesWith]
  | error k => simp [completesWith]

/-- Dropping 29 bits or more of a 53-bit significand leaves a mantissa of 24 bits. -/
theorem sig_div_lt {sig k : ℕ} (hsig : sig < 2 ^ 53) (hk : 29 ≤ k) : sig / 2 ^ k < 2 ^ 24 := by
  rw [Nat.div_lt_iff_lt_mul (by positivity)]
  calc sig < 2 ^ 24 * 2 ^ 29 := hsig
    _ ≤ 2 ^ 24 * 2 ^ k := Nat.mul_le_mul_left _ (Nat.pow_le_pow_right two_pos hk)

/-- Dropping 32 bits or fewer of a 53-bit significand leaves the top hex digit non-zero. -/
theorem le_sig_div {sig k : ℕ} (hsig : 2 ^ 52 ≤ sig) (hk : k ≤ 32) : 2 ^ 20 ≤ sig / 2 ^ k := by
  rw [Nat.le_div_iff_mul_le (by positivity)]
  calc 2 ^ 20 * 2 ^ k ≤ 2 ^ 20 * 2 ^ 32 := Nat.mul_le_mul_left _ (Nat.pow_le_pow_right two_pos hk)
    _ ≤ sig := hsig

/-- ENC by the bits, with divisions for its shifts (R48). -/
theorem encGives_enc (st : State) (s : BitVec 1) {sig : ℕ} (x : ℤ) (hhi : sig < 2 ^ 53) :
    EncGives s.toNat sig x (st.conclude driveR (enc s sig x)).out := by
  unfold EncGives
  obtain ⟨hover, h⟩ | ⟨hx, h⟩ | ⟨hlo, hx, hnot, h⟩ | ⟨hlo, hx, h⟩ := enc_cases s sig x
  · rw [h, if_pos hover, State.conclude_driveR_error]
  · rw [h, if_neg (by omega), if_pos hx, State.conclude_driveR_error]
  · rw [h, if_neg (by omega), if_neg (by omega), if_pos hlo, State.conclude_driveR_ok,
      Nat.shiftRight_eq_div_pow, packNat_eq_wordOf s (by omega) (sig_div_lt hhi (by omega))]
  · rw [h, if_neg (by omega), if_neg (by omega), if_neg (by omega), State.conclude_driveR_ok,
      Nat.shiftRight_eq_div_pow, packNat_eq_wordOf s (by omega) (sig_div_lt hhi (by omega))]

/-- ENC raises Overflow above the largest magnitude (R50). -/
theorem enc_of_above (s : BitVec 1) {sig : ℕ} {x : ℤ}
    (hmax : 252 ≤ x ∨ x = 251 ∧ (2 ^ 24 - 1) * 2 ^ 29 < sig) : enc s sig x = .error .overflow := by
  obtain ⟨-, h⟩ | ⟨hx, -⟩ | ⟨-, hx, hnot, -⟩ | ⟨-, hx, -⟩ := enc_cases s sig x
  · exact h
  all_goals omega

/-- ENC raises Underflow below `2^-280` (R48). -/
theorem enc_of_below (s : BitVec 1) (sig : ℕ) {x : ℤ} (hx : x ≤ -281) :
    enc s sig x = .error .underflow := by
  obtain ⟨hover, -⟩ | ⟨-, h⟩ | ⟨hlo, -⟩ | ⟨hlo, -⟩ := enc_cases s sig x
  · omega
  · exact h
  all_goals omega

/-- Every word ENC completes with, in one form: `k` bits dropped so that the mantissa's unit is the
field's, normalized from `2^-260` up and at field 0 below (R48). -/
theorem enc_completes (s : BitVec 1) {sig : ℕ} {x : ℤ} (hlo : 2 ^ 52 ≤ sig) (hhi : sig < 2 ^ 53)
    (hx : -280 ≤ x) (hmax : ¬(252 ≤ x ∨ x = 251 ∧ (2 ^ 24 - 1) * 2 ^ 29 < sig)) :
    ∃ e k : ℕ, e < 2 ^ 7 ∧ sig / 2 ^ k < 2 ^ 24 ∧ x - 52 + k = 4 * (e : ℤ) - 280 ∧
      (-260 ≤ x → 2 ^ 20 ≤ sig / 2 ^ k) ∧ (x < -260 → e = 0) ∧
      enc s sig x = .ok (wordOf s.toNat e (sig / 2 ^ k)) := by
  obtain ⟨hover, -⟩ | ⟨hunder, -⟩ | ⟨hnorm, hx', -, h⟩ | ⟨-, hsub, h⟩ := enc_cases s sig x
  · exact absurd hover hmax
  · omega
  · have hlt := sig_div_lt hhi (k := (32 - x % 4).toNat) (by omega)
    refine ⟨(x / 4 + 65).toNat, _, by omega, hlt, by omega, fun _ => le_sig_div hlo (by omega),
      by omega, ?_⟩
    rw [h, Nat.shiftRight_eq_div_pow, packNat_eq_wordOf s (by omega) hlt]
  · have hlt := sig_div_lt hhi (k := (-228 - x).toNat) (by omega)
    refine ⟨0, _, by omega, hlt, by omega, by omega, fun _ => rfl, ?_⟩
    rw [h, Nat.shiftRight_eq_div_pow, packNat_eq_wordOf s (by omega) hlt]

/-- Dropping `k` bits of an integer in units of `2^i` loses less than one unit of `2^(i+k)`. -/
theorem truncation_bounds (n k : ℕ) (i : ℤ) :
    ((n / 2 ^ k : ℕ) : ℚ) * 2 ^ (i + k) ≤ n * 2 ^ i ∧
      (n : ℚ) * 2 ^ i - ((n / 2 ^ k : ℕ) : ℚ) * 2 ^ (i + k) < 2 ^ (i + k) := by
  have hsplit : (n : ℚ) = (n / 2 ^ k : ℕ) * 2 ^ k + (n % 2 ^ k : ℕ) := by
    exact_mod_cast (Nat.div_add_mod' n (2 ^ k)).symm
  have hrem : ((n % 2 ^ k : ℕ) : ℚ) < 2 ^ k := by exact_mod_cast Nat.mod_lt n (by positivity)
  have hpos : (0 : ℚ) < 2 ^ i := by positivity
  have hloss : (n : ℚ) * 2 ^ i - ((n / 2 ^ k : ℕ) : ℚ) * 2 ^ (i + k) = (n % 2 ^ k : ℕ) * 2 ^ i := by
    rw [zpow_add₀ two_ne_zero, zpow_natCast]
    linear_combination (2 : ℚ) ^ i * hsplit
  constructor
  · have hnonneg : (0 : ℚ) ≤ (n % 2 ^ k : ℕ) * 2 ^ i := by positivity
    linarith
  · calc _ = ((n % 2 ^ k : ℕ) : ℚ) * 2 ^ i := hloss
      _ < 2 ^ k * 2 ^ i := mul_lt_mul_of_pos_right hrem hpos
      _ = 2 ^ (i + k) := by rw [zpow_add₀ two_ne_zero, zpow_natCast, mul_comm]

/-- The binade of a 53-bit significand times `2^(x-52)` is `x`. -/
theorem significand_bounds {sig : ℕ} (x : ℤ) (hlo : 2 ^ 52 ≤ sig) (hhi : sig < 2 ^ 53) :
    (2 : ℚ) ^ x ≤ sig * 2 ^ (x - 52) ∧ (sig : ℚ) * 2 ^ (x - 52) < 2 ^ (x + 1) := by
  have hlo : (2 : ℚ) ^ (52 : ℤ) ≤ sig := by exact_mod_cast hlo
  have hhi : (sig : ℚ) < 2 ^ (53 : ℤ) := by exact_mod_cast hhi
  have hpos : (0 : ℚ) < 2 ^ (x - 52) := by positivity
  constructor
  · calc (2 : ℚ) ^ x = 2 ^ (52 : ℤ) * 2 ^ (x - 52) := by rw [← zpow_add₀ two_ne_zero]; congr 1; omega
      _ ≤ sig * 2 ^ (x - 52) := mul_le_mul_of_nonneg_right hlo hpos.le
  · calc (sig : ℚ) * 2 ^ (x - 52) < 2 ^ (53 : ℤ) * 2 ^ (x - 52) := mul_lt_mul_of_pos_right hhi hpos
      _ = 2 ^ (x + 1) := by rw [← zpow_add₀ two_ne_zero]; congr 1; omega

/-- The largest magnitude as a significand at binade 251 (R19). -/
theorem maxMagnitude_eq : maxMagnitude = ((2 ^ 24 - 1) * 2 ^ 29 : ℕ) * 2 ^ ((251 : ℤ) - 52) := by
  rw [maxMagnitude]
  norm_num

/-- ENC's test for Overflow compares the exact magnitude with the largest one (R50). -/
theorem maxMagnitude_lt_iff {sig : ℕ} (x : ℤ) (hlo : 2 ^ 52 ≤ sig) (hhi : sig < 2 ^ 53) :
    maxMagnitude < sig * 2 ^ (x - 52) ↔ 252 ≤ x ∨ x = 251 ∧ (2 ^ 24 - 1) * 2 ^ 29 < sig := by
  obtain ⟨hge, hlt⟩ := significand_bounds x hlo hhi
  obtain h | rfl | h : x < 251 ∨ x = 251 ∨ 252 ≤ x := by omega
  · refine iff_of_false (not_lt.2 ?_) (by omega)
    calc (sig : ℚ) * 2 ^ (x - 52) ≤ 2 ^ (x + 1) := hlt.le
      _ ≤ 2 ^ (251 : ℤ) := zpow_le_zpow_right₀ one_le_two (by omega)
      _ ≤ maxMagnitude := by norm_num [maxMagnitude]
  · rw [maxMagnitude_eq, mul_lt_mul_iff_left₀ (by positivity), Nat.cast_lt]
    omega
  · refine iff_of_true ?_ (.inl h)
    calc maxMagnitude < 2 ^ (252 : ℤ) := by norm_num [maxMagnitude]
      _ ≤ 2 ^ x := zpow_le_zpow_right₀ one_le_two h
      _ ≤ sig * 2 ^ (x - 52) := hge

/-- A power of two bounds the exact magnitude exactly when it bounds the binade. -/
theorem magnitude_lt_zpow_iff {sig : ℕ} (x y : ℤ) (hlo : 2 ^ 52 ≤ sig) (hhi : sig < 2 ^ 53) :
    (sig : ℚ) * 2 ^ (x - 52) < 2 ^ y ↔ x < y := by
  obtain ⟨hge, hlt⟩ := significand_bounds x hlo hhi
  constructor
  · intro h
    exact (zpow_lt_zpow_iff_right₀ one_lt_two).1 (hge.trans_lt h)
  · intro h
    exact hlt.trans_le (zpow_le_zpow_right₀ one_le_two (by omega))

/-- ENC by value: what it gives for a significand and a binade is what encoding their exact product
gives (R48 to R50). -/
theorem encodesTo_enc (st : State) (s : BitVec 1) {sig : ℕ} (x : ℤ) (hlo : 2 ^ 52 ≤ sig)
    (hhi : sig < 2 ^ 53) :
    EncodesTo (signQ s * (sig : ℚ) * 2 ^ (x - 52)) (st.conclude driveR (enc s sig x)).out := by
  have hne : signQ s * (sig : ℚ) * 2 ^ (x - 52) ≠ 0 := by
    rw [← abs_pos, abs_signQ_mul]
    have : 0 < sig := by omega
    positivity
  rw [EncodesTo, abs_signQ_mul, if_congr (maxMagnitude_lt_iff x hlo hhi) rfl rfl, if_neg hne,
    if_congr (magnitude_lt_zpow_iff x _ hlo hhi) rfl rfl]
  split_ifs with hmax hunder
  · rw [enc_of_above s hmax, State.conclude_driveR_error]
  · rw [enc_of_below s sig (by omega), State.conclude_driveR_error]
  · obtain ⟨e, k, he, hm, hunit, hnorm, hsub, h⟩ := enc_completes s hlo hhi (by omega) hmax
    obtain ⟨hle, hloss⟩ := truncation_bounds sig k (x - 52)
    refine ⟨_, by rw [h, State.conclude_driveR_ok], ?_, ?_⟩
    · rw [signQ_mul_neg_iff s (by omega), fieldS_wordOf s.isLt he hm, ← BitVec.toNat_inj]
      rfl
    have hbinade := magnitude_lt_zpow_iff x (-260) hlo hhi
    rw [abs_val, fieldE_wordOf he hm, fieldM_wordOf hm, ← hunit, hbinade]
    exact ⟨hle, hloss, fun h => hnorm (not_lt.1 (mt hbinade.2 (not_lt.2 h))), hsub⟩

end Sys2Proof.Machine
end

section
/-! SUPPORT. IEEE2IBM by the fields of the double (R49) and by the value it encodes (R48, R79). -/

namespace Sys2Proof.Machine

theorem exec_ieee2ibm (d : Double64) (s : State) :
    exec (.ieee2ibm d) s = .next (s.conclude driveR (ieee2ibm d)) := rfl

theorem ieee2ibm_of_special {d : Double64} (h : doubleE d = 2047) :
    ieee2ibm d = .error .invalidValue := by
  simp only [ieee2ibm, dblExp_toNat, if_pos h]

theorem ieee2ibm_of_zero {d : Double64} (hE : doubleE d = 0) (hF : doubleF d = 0) :
    ieee2ibm d = .ok canonicalZero := by
  simp [ieee2ibm, dblExp_toNat, dblFrac_toNat, hE, hF]

theorem ieee2ibm_of_subnormal {d : Double64} (hE : doubleE d = 0) (hF : doubleF d ≠ 0) :
    ieee2ibm d = .error .underflow := by
  simp [ieee2ibm, dblExp_toNat, dblFrac_toNat, hE, hF]

theorem ieee2ibm_of_normal {d : Double64} (hpos : doubleE d ≠ 0) (hlt : doubleE d ≠ 2047) :
    ieee2ibm d = enc (dblSign d) (2 ^ 52 + doubleF d) ((doubleE d : ℤ) - 1023) := by
  simp only [ieee2ibm, dblExp_toNat, dblFrac_toNat, hpos, hlt, if_false, false_and]

/-- ENC's outcome for a normal double, its thresholds and shifts by the biased exponent (R49). -/
theorem EncGives.of_biased {s e f : ℕ} {o : OutPorts} (h : EncGives s (2 ^ 52 + f) ((e : ℤ) - 1023) o)
    (hf : f < 2 ^ 52) : o =
      if e ≤ 742 then raisesKind .underflow
      else if 1275 ≤ e ∨ e = 1274 ∧ f / 2 ^ 29 = 2 ^ 23 - 1 ∧ f % 2 ^ 29 ≠ 0 then raisesKind .overflow
      else if 763 ≤ e then
        completesWith (wordOf s ((e + 1) / 4 - 191) ((2 ^ 52 + f) / 2 ^ (32 - (e + 1) % 4)))
      else completesWith (wordOf s 0 ((2 ^ 52 + f) / 2 ^ (795 - e))) := by
  have hover : (252 ≤ (e : ℤ) - 1023 ∨ (e : ℤ) - 1023 = 251 ∧ (2 ^ 24 - 1) * 2 ^ 29 < 2 ^ 52 + f) ↔
      1275 ≤ e ∨ e = 1274 ∧ f / 2 ^ 29 = 2 ^ 23 - 1 ∧ f % 2 ^ 29 ≠ 0 := by omega
  have hunder : (e : ℤ) - 1023 ≤ -281 ↔ e ≤ 742 := by omega
  have hnorm : -260 ≤ (e : ℤ) - 1023 ↔ 763 ≤ e := by omega
  have hfield : (((e : ℤ) - 1023) / 4 + 65).toNat = (e + 1) / 4 - 191 := by omega
  have hdrop : (32 - ((e : ℤ) - 1023) % 4).toNat = 32 - (e + 1) % 4 := by omega
  have hdrop0 : (-228 - ((e : ℤ) - 1023)).toNat = 795 - e := by omega
  rw [EncGives, if_congr hover rfl rfl, if_congr hunder rfl rfl, if_congr hnorm rfl rfl, hfield, hdrop,
    hdrop0] at h
  by_cases hlow : e ≤ 742
  · rw [if_neg (by omega), if_pos hlow] at h
    rw [if_pos hlow, h]
  · rw [if_neg hlow] at h ⊢
    split_ifs at h ⊢ <;> exact h

/-- A zero or a subnormal double lies below every non-zero word (R49). -/
theorem abs_lt_of_exp_zero {d : Double64} {v : ℚ} (hE : doubleE d = 0) (h : doubleVal d = some v) :
    |v| < 2 ^ (-280 : ℤ) := by
  have hF : (doubleF d : ℚ) < 2 ^ (52 : ℤ) := by exact_mod_cast doubleF_lt d
  rw [doubleVal_of_exp_zero hE, Option.some.injEq] at h
  calc |v| = doubleF d * 2 ^ (-1074 : ℤ) := by rw [← h, abs_signQ_mul]
    _ < 2 ^ (52 : ℤ) * 2 ^ (-1074 : ℤ) := mul_lt_mul_of_pos_right hF (by positivity)
    _ = 2 ^ (-1022 : ℤ) := (zpow_add₀ two_ne_zero _ _).symm
    _ < 2 ^ (-280 : ℤ) := zpow_lt_zpow_right₀ one_lt_two (by decide)

/-- A double with biased exponent 0 is zero exactly when its fraction is (R18). -/
theorem eq_zero_iff_of_exp_zero {d : Double64} {v : ℚ} (hE : doubleE d = 0) (h : doubleVal d = some v) :
    v = 0 ↔ doubleF d = 0 := by
  rw [doubleVal_of_exp_zero hE, Option.some.injEq] at h
  rw [← abs_eq_zero, ← h, abs_signQ_mul]
  simp

/-- Below every non-zero word, encoding gives the canonical zero or Underflow (R49). -/
theorem encodesTo_iff_of_small {v : ℚ} (h : |v| < 2 ^ (-280 : ℤ)) (o : OutPorts) :
    EncodesTo v o ↔ o = if v = 0 then completesWith 0x00000000#32 else raisesKind .underflow := by
  have hmax : ¬maxMagnitude < |v| := by
    have hle : (2 : ℚ) ^ (-280 : ℤ) ≤ 1 := zpow_le_one_of_nonpos₀ one_le_two (by decide)
    have hone : 1 ≤ maxMagnitude := by norm_num [maxMagnitude]
    linarith
  rw [EncodesTo, if_neg hmax, if_pos h]
  split <;> rfl

/-- What IEEE2IBM gives is what encoding the double's value gives (R48, R49). -/
theorem encodesTo_ieee2ibm {d : Double64} {v : ℚ} (h : doubleVal d = some v) (st : State) :
    EncodesTo v (st.conclude driveR (ieee2ibm d)).out := by
  by_cases hspecial : doubleE d = 2047
  · simp [doubleVal_of_special hspecial] at h
  by_cases hE : doubleE d = 0
  · have hv := eq_zero_iff_of_exp_zero hE h
    rw [encodesTo_iff_of_small (abs_lt_of_exp_zero hE h)]
    split_ifs with hzero
    · rw [ieee2ibm_of_zero hE (hv.1 hzero)]
      rfl
    · rw [ieee2ibm_of_subnormal hE (mt hv.2 hzero), State.conclude_driveR_error]
  · have hF := doubleF_lt d
    have hexp : (doubleE d : ℤ) - 1075 = (doubleE d : ℤ) - 1023 - 52 := by omega
    rw [doubleVal_of_normal hE hspecial, Option.some.injEq, hexp] at h
    rw [ieee2ibm_of_normal hE hspecial, ← h]
    exact encodesTo_enc st _ _ (by omega) (by omega)

/-- In the range of the words' magnitudes, encoding a value completes with a truncated word (R48). -/
theorem EncodesTo.completes {v : ℚ} {o : OutPorts} (h : EncodesTo v o)
    (hlo : (2 : ℚ) ^ (-280 : ℤ) ≤ |v|) (hhi : |v| ≤ maxMagnitude) :
    ∃ r : IbmWord, o = completesWith r ∧ (fieldS r = 1 ↔ v < 0) ∧ |val r| ≤ |v| ∧
      |v| - |val r| < (2 : ℚ) ^ (4 * (fieldE r : ℤ) - 280) := by
  have hv : v ≠ 0 := by
    rintro rfl
    have : (0 : ℚ) < 2 ^ (-280 : ℤ) := by positivity
    rw [abs_zero] at hlo
    linarith
  rw [EncodesTo, if_neg (not_lt.2 hhi), if_neg hv, if_neg (not_lt.2 hlo)] at h
  obtain ⟨r, ho, hsign, hle, hloss, -, -⟩ := h
  exact ⟨r, ho, hsign, hle, hloss⟩

end Sys2Proof.Machine
end

section
/-! The statements on IEEE2IBM. -/

namespace Sys2Proof.Machine

/-- Settles O20: the special exponents by themselves, every other double by ENC on its fields. -/
theorem ieee2ibmResult : Obligations.Ieee2ibmResult := by
  refine ⟨fun req => decode_of_code (o := .ieee2ibm) rfl, fun d s => ⟨_, exec_ieee2ibm d s,
    (State.conclude_frame ..).1, ?_⟩⟩
  have hE := doubleE_lt d
  have hF := doubleF_lt d
  by_cases hspecial : doubleE d = 2047
  · rw [if_pos hspecial, ieee2ibm_of_special hspecial, State.conclude_driveR_error]
  rw [if_neg hspecial]
  by_cases hpos : doubleE d = 0
  · by_cases hzero : doubleF d = 0
    · rw [if_pos ⟨hpos, hzero⟩, ieee2ibm_of_zero hpos hzero]
      rfl
    · rw [if_neg (by omega), if_pos (by omega), ieee2ibm_of_subnormal hpos hzero,
        State.conclude_driveR_error]
  · have h := encGives_enc s (dblSign d) (sig := 2 ^ 52 + doubleF d) ((doubleE d : ℤ) - 1023) (by omega)
    rw [← ieee2ibm_of_normal hpos hspecial, dblSign_toNat] at h
    rw [if_neg (by omega), h.of_biased hF]

/-- Settles O21: a double without a value has the exponent of an infinity or a NaN. -/
theorem ieee2ibmEncodesTheValue : Obligations.Ieee2ibmEncodesTheValue := by
  refine fun d s => ⟨_, exec_ieee2ibm d s, (State.conclude_frame ..).1, fun hnone => ?_,
    fun v hv => encodesTo_ieee2ibm hv s⟩
  have hspecial : doubleE d = 2047 := by
    by_contra hlt
    by_cases hE : doubleE d = 0
    · simp [doubleVal_of_exp_zero hE] at hnone
    · simp [doubleVal_of_normal hE hlt] at hnone
  rw [ieee2ibm_of_special hspecial, State.conclude_driveR_error]

end Sys2Proof.Machine
end

section
/-! SUPPORT. The round trips of R51: a word normalized as far as its field allows keeps its value, and a
double that is a word's value is that word's double. -/

namespace Sys2Proof.Machine

/-- Moving the mantissa up by whole hex digits and the field down by as many keeps the value (R51). -/
theorem NormalizedAsFarAs.val_eq {w r : IbmWord}
    (h : NormalizedAsFarAs (fieldS w) (fieldE w) (fieldM w) r) : val r = val w := by
  obtain ⟨k, hk, hlt, -, rfl⟩ := h
  have he := fieldE_lt w
  have hunit : 4 * (fieldE w : ℤ) - 280 = ((4 * k : ℕ) : ℤ) + (4 * ((fieldE w - k : ℕ) : ℤ) - 280) := by
    omega
  rw [val_eq_fields, val_eq_fields w, fieldS_wordOf (fieldS_lt w) (by omega) hlt,
    fieldE_wordOf (by omega) hlt, fieldM_wordOf hlt, hunit, zpow_add₀ two_ne_zero, zpow_natCast, pow_mul]
  push_cast
  ring

/-- A word is its own normalization exactly when no digit can be moved (R51). -/
theorem NormalizedAsFarAs.eq_word_iff {w r : IbmWord}
    (h : NormalizedAsFarAs (fieldS w) (fieldE w) (fieldM w) r) :
    r = w ↔ 2 ^ 20 ≤ fieldM w ∨ fieldE w = 0 := by
  obtain ⟨k, hk, hlt, hfar, rfl⟩ := h
  have he := fieldE_lt w
  constructor
  · intro heq
    have hfield : fieldE w - k = fieldE w := by
      rw [← fieldE_wordOf (s := fieldS w) (e := fieldE w - k) (by omega) hlt, heq]
    obtain rfl | hzero : k = 0 ∨ fieldE w = 0 := by omega
    · simpa [eq_comm] using hfar
    · exact .inr hzero
  · intro hstuck
    have hk0 : k = 0 := by
      by_contra hpos
      have hdigit : 16 ≤ 16 ^ k := Nat.le_self_pow hpos 16
      have hgrow : fieldM w * 16 ≤ fieldM w * 16 ^ k := Nat.mul_le_mul_left _ hdigit
      omega
    rw [hk0, pow_zero, mul_one, Nat.sub_zero, wordOf_fields]

/-- A zero word comes back as the canonical zero (R51). -/
theorem ieee2ibm_ibm2ieee_of_zero {w : IbmWord} (h : fieldM w = 0) :
    ieee2ibm (ibm2ieee w) = .ok canonicalZero := by
  obtain ⟨hE, hF⟩ := doubleE_doubleF_ibm2ieee_of_zero h
  exact ieee2ibm_of_zero hE hF

/-- A word's double is not above the largest magnitude, so ENC does not overflow on it (R51). -/
theorem ibm2ieee_not_above {w : IbmWord} (h : fieldM w ≠ 0) :
    ¬(252 ≤ (doubleE (ibm2ieee w) : ℤ) - 1023 ∨ (doubleE (ibm2ieee w) : ℤ) - 1023 = 251 ∧
      (2 ^ 24 - 1) * 2 ^ 29 < fieldM w * 2 ^ (52 - msb (fieldM w))) := by
  have hM := fieldM_lt w
  have hfield := fieldE_lt w
  have hp := msb_le h hM
  rw [doubleE_ibm2ieee h]
  rintro (hx | ⟨hx, hsig⟩)
  · omega
  · have htop : msb (fieldM w) = 23 := by omega
    rw [htop] at hsig
    omega

/-- A mantissa `m` at field `f` moved up by `q` bits and down by `k` to field `e`: when a higher field
would leave a normalized mantissa there is none higher, and what remains is a move by whole hex digits. -/
theorem mantissa_moved_by_digits {m q k e f : ℕ} (hm : m < 2 ^ 24) (hunit : q + 4 * e = k + 4 * f)
    (hnorm : f < e → 2 ^ 20 ≤ m * 2 ^ q / 2 ^ k) : e ≤ f ∧ m * 2 ^ q / 2 ^ k = m * 16 ^ (f - e) := by
  have hle : e ≤ f := by
    by_contra hgt
    have hmant := hnorm (by omega)
    rw [Nat.le_div_iff_mul_le (by positivity), ← pow_add] at hmant
    have hpow : 2 ^ (20 + k) < 2 ^ (24 + q) := by
      rw [pow_add 2 24]
      exact hmant.trans_lt (Nat.mul_lt_mul_of_pos_right hm (by positivity))
    have := (Nat.pow_lt_pow_iff_right one_lt_two).1 hpow
    omega
  have hsplit : q = 4 * (f - e) + k := by omega
  refine ⟨hle, ?_⟩
  rw [hsplit, pow_add, ← mul_assoc, Nat.mul_div_cancel _ (by positivity), pow_mul]
  rfl

/-- Any other word comes back normalized as far as its field allows: the bits dropped are the ones that
IBM2IEEE put below the mantissa, but for whole hex digits (R51). -/
theorem ieee2ibm_ibm2ieee_of_nonzero {w : IbmWord} (h : fieldM w ≠ 0) :
    ∃ r, ieee2ibm (ibm2ieee w) = .ok r ∧ NormalizedAsFarAs (fieldS w) (fieldE w) (fieldM w) r := by
  obtain ⟨hElo, hEhi⟩ := doubleE_ibm2ieee_range h
  obtain ⟨-, hlo, hhi⟩ := alignedFraction_toNat h (fieldM_lt w)
  have hp := msb_le h (fieldM_lt w)
  have hexp := doubleE_ibm2ieee h
  obtain ⟨e, k, -, hlt, hunit, hnorm, hsub, henc⟩ :=
    enc_completes (sign w) hlo hhi (by omega) (ibm2ieee_not_above h)
  obtain ⟨hle, hmant⟩ := mantissa_moved_by_digits (fieldM_lt w) (q := 52 - msb (fieldM w)) (e := e)
    (f := fieldE w) (by omega) (fun _ => hnorm (by omega))
  rw [hmant] at hlt hnorm henc
  refine ⟨wordOf (fieldS w) e (fieldM w * 16 ^ (fieldE w - e)), ?_, fieldE w - e, by omega, hlt, ?_,
    by rw [Nat.sub_sub_self hle]⟩
  · rw [ieee2ibm_of_normal (by omega) (by omega), significand_ibm2ieee h, dblSign_ibm2ieee, henc,
      sign_toNat]
  · by_cases hx : -260 ≤ (doubleE (ibm2ieee w) : ℤ) - 1023
    · exact .inl (hnorm hx)
    · exact .inr (by rw [hsub (by omega), Nat.sub_zero])

/-- A normal double whose value is a word's is the double that IBM2IEEE gives for it (R47). -/
theorem eq_ibm2ieee_of_val {d : Double64} {w : IbmWord} (h : doubleVal d = some (val w))
    (hpos : doubleE d ≠ 0) (hm : fieldM w ≠ 0) : d = ibm2ieee w := by
  have hrange := doubleE_ibm2ieee_range hm
  exact double_eq_of_doubleVal_eq h (doubleVal_ibm2ieee w) hpos (by omega)

/-- A double that is a non-zero word's value comes back bit for bit (R51). -/
theorem ibm2ieee_ieee2ibm_of_val {d : Double64} {w r : IbmWord} (h : doubleVal d = some (val w))
    (hpos : doubleE d ≠ 0) (hm : fieldM w ≠ 0) (hr : ieee2ibm d = .ok r) : ibm2ieee r = d := by
  have hd := eq_ibm2ieee_of_val h hpos hm
  obtain ⟨r', hr', hnorm⟩ := ieee2ibm_ibm2ieee_of_nonzero hm
  obtain rfl : r = r' := by simpa [hd, hr'] using hr.symm
  have hval := hnorm.val_eq
  have hrm : fieldM r ≠ 0 := by rwa [Ne, ← val_eq_zero_iff, hval, val_eq_zero_iff]
  exact (eq_ibm2ieee_of_val (hval ▸ h) hpos hrm).symm

/-- A unit in the last place of a normalized word is at most `2^-20` of its magnitude (R51). -/
theorem ulp_le_of_normalized {r : IbmWord} (h : 2 ^ 20 ≤ fieldM r) :
    (2 : ℚ) ^ (4 * (fieldE r : ℤ) - 280) ≤ 2 ^ (-20 : ℤ) * |val r| := by
  have hm : (2 : ℚ) ^ (20 : ℤ) ≤ fieldM r := by exact_mod_cast h
  rw [abs_val, ← mul_assoc]
  refine le_mul_of_one_le_left (by positivity) ?_
  calc (1 : ℚ) = 2 ^ (-20 : ℤ) * 2 ^ (20 : ℤ) := by norm_num
    _ ≤ 2 ^ (-20 : ℤ) * fieldM r := mul_le_mul_of_nonneg_left hm (by positivity)

/-- The sign bit of a double of non-zero value (R18). -/
theorem doubleS_eq_one_iff {d : Double64} {x : ℚ} (h : doubleVal d = some x) (hpos : doubleE d ≠ 0) :
    doubleS d = 1 ↔ x < 0 := by
  have hlt : doubleE d ≠ 2047 := fun hE => by simp [doubleVal_of_special hE] at h
  rw [doubleVal_of_normal hpos hlt, Option.some.injEq] at h
  rw [← h, signQ_mul_neg_iff _ (by omega), ← dblSign_toNat, ← BitVec.toNat_inj]
  rfl

end Sys2Proof.Machine
end

section
/-! The statements on the round trips. -/

namespace Sys2Proof.Machine

/-- Settles O22: the bits IEEE2IBM drops are the zeros IBM2IEEE put there. -/
theorem wordToDoubleToWord : Obligations.WordToDoubleToWord := by
  intro w s u
  by_cases h : fieldM w = 0
  · refine ⟨_, ibm2ieee w, _, canonicalZero, rfl, rfl, exec_ieee2ibm _ u, ?_, fun _ => rfl,
      fun hm => absurd h hm, ?_⟩
    · rw [ieee2ibm_ibm2ieee_of_zero h, State.conclude_driveR_ok]
    · simp only [h, ne_eq, not_true_eq_false, false_and, or_false]
      exact eq_comm
  · obtain ⟨r, hr, hnorm⟩ := ieee2ibm_ibm2ieee_of_nonzero h
    have hw : w ≠ 0x00000000#32 := by
      rintro rfl
      exact h rfl
    refine ⟨_, ibm2ieee w, _, r, rfl, rfl, exec_ieee2ibm _ u, ?_, fun h0 => absurd h0 h,
      fun _ => ⟨hnorm, hnorm.val_eq⟩, ?_⟩
    · rw [hr, State.conclude_driveR_ok]
    · simp [hnorm.eq_word_iff, h, hw]

/-- Settles O23: encoding truncates and decoding is exact, so the loss is the truncation's. -/
theorem doubleToWordToDouble : Obligations.DoubleToWordToDouble := by
  intro d x s u hx hlo hhi
  have hpos : doubleE d ≠ 0 := fun hE => (abs_lt_of_exp_zero hE hx).not_ge hlo
  obtain ⟨r, ho, hsign, hle, hloss⟩ := (encodesTo_ieee2ibm hx s).completes hlo hhi
  have hr : ieee2ibm d = .ok r := (State.conclude_driveR_out_iff s _ r).1 ho
  refine ⟨_, r, _, ibm2ieee r, val r, exec_ieee2ibm d s, ho, rfl, rfl, doubleVal_ibm2ieee r, ?_,
    sub_nonneg.2 hle, hloss, fun hnorm => ?_, ?_⟩
  · have hbit := hsign.trans (doubleS_eq_one_iff hx hpos).symm
    have hS := fieldS_lt r
    have hD := doubleS_lt d
    omega
  · calc |x| - |val r| < 2 ^ (4 * (fieldE r : ℤ) - 280) := hloss
      _ ≤ 2 ^ (-20 : ℤ) * |val r| := ulp_le_of_normalized hnorm
      _ ≤ 2 ^ (-20 : ℤ) * |x| := mul_le_mul_of_nonneg_left hle (by positivity)
  · rintro ⟨w, rfl⟩
    have hm : fieldM w ≠ 0 := by
      intro h0
      rw [(val_eq_zero_iff w).2 h0, abs_zero] at hlo
      exact absurd hlo (not_le.2 (by positivity))
    exact ibm2ieee_ieee2ibm_of_val hx hpos hm hr

end Sys2Proof.Machine
end

section
/-! SUPPORT. Packing and taking apart undo each other (R57), the value by the fields that DECOMP gives
(R15, R52), and a predicate's bit by what it says of the mantissa (R54 to R56). -/

namespace Sys2Proof.Machine

theorem sign_pack (s : BitVec 1) (e : BitVec 7) (m : BitVec 24) : sign (pack s e m) = s := by
  rw [← BitVec.toNat_inj, sign_toNat, pack_eq_wordOf, fieldS_wordOf s.isLt e.isLt m.isLt]

theorem expf_pack (s : BitVec 1) (e : BitVec 7) (m : BitVec 24) : expf (pack s e m) = e := by
  rw [← BitVec.toNat_inj, expf_toNat, pack_eq_wordOf, fieldE_wordOf e.isLt m.isLt]

theorem mant_pack (s : BitVec 1) (e : BitVec 7) (m : BitVec 24) : mant (pack s e m) = m := by
  rw [← BitVec.toNat_inj, mant_toNat, pack_eq_wordOf, fieldM_wordOf m.isLt]

/-- A word is packed from its own fields (R57). -/
theorem pack_fields (w : IbmWord) : pack (sign w) (expf w) (mant w) = w := by
  rw [pack_eq_wordOf, sign_toNat, expf_toNat, mant_toNat, wordOf_fields]

/-- The sign factor is a power of -1. -/
theorem signQ_eq_neg_one_pow (s : BitVec 1) : signQ s = (-1) ^ s.toNat := by
  obtain rfl | rfl := BitVec.eq_zero_or_eq_one s <;> simp [signQ]

/-- The value with the mantissa as a fraction below 1: the unit `2^(4e-280)` is `2^-24 * 16^(e-64)`
(R15, R57). -/
theorem val_eq_fraction (w : IbmWord) : val w = (-1) ^ (sign w).toNat *
    (((mant w).toNat : ℚ) / 2 ^ 24) * (16 : ℚ) ^ (((expf w).toNat : ℤ) - 64) := by
  have hunit : (2 : ℚ) ^ (4 * ((expf w).toNat : ℤ) - 280) =
      (16 : ℚ) ^ (((expf w).toNat : ℤ) - 64) / 2 ^ 24 := by
    have hexp : 4 * ((expf w).toNat : ℤ) - 280 = 4 * (((expf w).toNat : ℤ) - 64) - (24 : ℕ) := by
      push_cast; ring
    rw [hexp, zpow_sub₀ two_ne_zero, zpow_mul, zpow_natCast]
    norm_num
  rw [val, signQ_eq_neg_one_pow, hunit]
  ring

/-- The bit of a test that says `P`. -/
theorem ofBool_eq_ite {b : Bool} {P : Prop} [Decidable P] (h : b = true ↔ P) :
    BitVec.ofBool b = if P then 1#1 else 0#1 := by
  by_cases hP : P
  · rw [h.2 hP, if_pos hP]; rfl
  · rw [Bool.eq_false_iff.2 (mt h.1 hP), if_neg hP]; rfl

/-- A transaction that completes with a predicate drives `p` alone, 1 when it holds (R13, R40). -/
theorem complete_driveP_out (s : State) {b : Bool} {P : Prop} [Decidable P] (h : b = true ↔ P) :
    (s.complete (driveP b)).out =
      { OutPorts.undriven with st := some .ok, p := some (if P then 1#1 else 0#1) } := by
  rw [State.complete_out, driveP, ofBool_eq_ite h]

/-- TOBOOL's test is that the mantissa is not 0 (R56). -/
theorem not_isZeroWord_iff (w : IbmWord) : (!isZeroWord w) = true ↔ fieldM w ≠ 0 := by
  rw [Bool.not_eq_true', Bool.eq_false_iff, ne_eq, isZeroWord_iff]

end Sys2Proof.Machine
end

section
/-! The statements on the decomposer and the predicates. -/

namespace Sys2Proof.Machine

/-- Settles O27: the ports carry the fields and the packed word, which undo each other. -/
theorem decomposeAndComposeAreInverse : Obligations.DecomposeAndComposeAreInverse := by
  refine ⟨fun a s u => ?_, fun fs fe fm s u => ?_⟩
  · refine ⟨_, sign a, expf a, mant a, tc8 (trueExponent a), _, rfl, rfl, rfl, rfl, rfl, rfl,
      congrArg some (pack_fields a), ?_⟩
    rw [toInt_tc8_trueExponent, val_eq_fraction]
  · exact ⟨_, pack fs fe fm, _, rfl, rfl, rfl, congrArg some (sign_pack fs fe fm),
      congrArg some (expf_pack fs fe fm), congrArg some (mant_pack fs fe fm)⟩

/-- Settles O24: each port's field as a number, and the true exponent within its 8 bits. -/
theorem decompResult : Obligations.DecompResult := by
  refine ⟨fun req => decode_of_code (o := .decomp) rfl, fun a s => ?_⟩
  refine ⟨_, sign a, expf a, mant a, tc8 (trueExponent a), rfl, rfl, rfl, sign_toNat a, expf_toNat a,
    mant_toNat a, ?_⟩
  rw [toInt_tc8_trueExponent, expf_toNat]

/-- Settles O25: the concatenation is the word of the fields. -/
theorem composeResult : Obligations.ComposeResult := by
  refine ⟨fun req => decode_of_code (o := .compose) rfl, fun cs ce cm s => ⟨_, rfl, rfl, ?_⟩⟩
  rw [← pack_eq_wordOf]
  rfl

/-- Settles O26: each predicate's bit by its test of the mantissa. -/
theorem predicateResults : Obligations.PredicateResults := by
  refine ⟨fun req => ⟨decode_of_code (o := .isZero) rfl, decode_of_code (o := .isSubn) rfl,
    decode_of_code (o := .toBool) rfl⟩, fun a s => ⟨?_, ?_, ?_⟩⟩
  · exact ⟨_, rfl, rfl, complete_driveP_out s (isZeroWord_iff a)⟩
  · exact ⟨_, rfl, rfl, complete_driveP_out s (isSubnormalWord_iff a)⟩
  · exact ⟨_, rfl, rfl, complete_driveP_out s (not_isZeroWord_iff a)⟩

end Sys2Proof.Machine
end

section
/-! SUPPORT. A word's magnitude as a whole number of smallest units, `2^-280` each: what comparing
and equating values of words comes down to (R15, R60). -/

namespace Sys2Proof.Machine

/-- The magnitude of a word in units of `2^-280`: the mantissa with one hex digit for each step of
the field (R15). -/
def unitsOf (w : IbmWord) : ℕ := fieldM w * 16 ^ fieldE w

/-- A mantissa's unit in the last place is one hex digit of units for each step of the field. -/
theorem zpow_field_unit (e : ℕ) : (2 : ℚ) ^ (4 * (e : ℤ) - 280) = 16 ^ e * 2 ^ (-280 : ℤ) := by
  have hdigit : (2 : ℚ) ^ (4 : ℤ) = 16 := by norm_num
  rw [sub_eq_add_neg, zpow_add₀ two_ne_zero, zpow_mul, zpow_natCast, hdigit]

/-- The units as a rational. -/
theorem unitsOf_cast (w : IbmWord) : (unitsOf w : ℚ) = fieldM w * 16 ^ fieldE w := by
  rw [unitsOf, Nat.cast_mul, Nat.cast_pow, Nat.cast_ofNat]

/-- The value is the signed number of units (R15). -/
theorem val_eq_units (w : IbmWord) :
    val w = (signedNat (fieldS w) (unitsOf w) : ℚ) * 2 ^ (-280 : ℤ) := by
  rw [val_eq_fields, zpow_field_unit, signedNat, ← mul_assoc, mul_assoc _ _ (16 ^ fieldE w),
    ← unitsOf_cast]
  split
  · rw [Int.cast_neg, Int.cast_natCast, neg_one_mul]
  · rw [Int.cast_natCast, one_mul]

/-- The magnitude is the number of units (R15). -/
theorem abs_val_eq_units (w : IbmWord) : |val w| = (unitsOf w : ℚ) * 2 ^ (-280 : ℤ) := by
  rw [abs_val, zpow_field_unit, ← mul_assoc, unitsOf_cast]

/-- The smallest normal magnitude is `2^20` units (R19). -/
theorem abs_val_lt_smallestNormal_iff (w : IbmWord) :
    |val w| < 2 ^ (-260 : ℤ) ↔ unitsOf w < 2 ^ 20 := by
  have hunit : (2 : ℚ) ^ (-260 : ℤ) = ((2 ^ 20 : ℕ) : ℚ) * 2 ^ (-280 : ℤ) := by
    exact_mod_cast zpow_add₀ (two_ne_zero' ℚ) 20 (-280)
  rw [abs_val_eq_units, hunit, mul_lt_mul_iff_left₀ (by positivity), Nat.cast_lt]

/-- Two non-zero magnitudes with signs are equal when both parts are. -/
theorem signedNat_inj {s t n m : ℕ} (hs : s < 2) (ht : t < 2) (hn : n ≠ 0) :
    signedNat s n = signedNat t m ↔ s = t ∧ n = m := by
  unfold signedNat
  split <;> split <;> omega

/-- Non-zero words have equal values exactly when signs and units agree (R15). -/
theorem val_eq_iff_units {a b : IbmWord} (h : fieldM a ≠ 0) :
    val a = val b ↔ fieldS a = fieldS b ∧ unitsOf a = unitsOf b := by
  have hunits : unitsOf a ≠ 0 := mul_ne_zero h (by positivity)
  rw [val_eq_units, val_eq_units b, mul_left_inj' (by positivity), Int.cast_inj,
    signedNat_inj (fieldS_lt a) (fieldS_lt b) hunits]

/-- Equal numbers of units differ by whole hex digits moved from the mantissa to the field (R60). -/
theorem mul_pow_eq_iff_digits_moved (m e n f : ℕ) : m * 16 ^ e = n * 16 ^ f ↔
    ∃ j, (f = e + j ∧ m = n * 16 ^ j) ∨ (e = f + j ∧ n = m * 16 ^ j) := by
  have cancel : ∀ m n e j : ℕ, m * 16 ^ e = n * 16 ^ (e + j) → m = n * 16 ^ j := by
    intro m n e j h
    rw [pow_add, mul_left_comm, mul_comm] at h
    exact Nat.eq_of_mul_eq_mul_left (by positivity) h
  constructor
  · intro h
    obtain hle | hle := le_total e f <;> obtain ⟨j, rfl⟩ := Nat.exists_eq_add_of_le hle
    · exact ⟨j, .inl ⟨rfl, cancel _ _ _ _ h⟩⟩
    · exact ⟨j, .inr ⟨rfl, cancel _ _ _ _ h.symm⟩⟩
  · rintro ⟨j, ⟨rfl, rfl⟩ | ⟨rfl, rfl⟩⟩ <;> ring

/-- A mantissa with its top digit set has no room for another digit. -/
theorem digits_eq_zero {m j : ℕ} (hlo : 2 ^ 20 ≤ m) (hhi : m * 16 ^ j < 2 ^ 24) : j = 0 := by
  by_contra hpos
  have hdigit : m * 16 ≤ m * 16 ^ j := Nat.mul_le_mul_left m (Nat.le_self_pow hpos 16)
  omega

/-- Words of equal fields are the same word. -/
theorem word_ext {a b : IbmWord} (hs : fieldS a = fieldS b) (he : fieldE a = fieldE b)
    (hm : fieldM a = fieldM b) : a = b := by
  rw [← wordOf_fields a, ← wordOf_fields b, hs, he, hm]

end Sys2Proof.Machine
end

section
/-! SUPPORT. The normalizer in closed form (R58): a mantissa with `k` leading zero digits moves up by
`k` digits, and the field pays one for each. `k` is fixed by `2^20 ≤ m * 16^k < 2^24`. -/

namespace Sys2Proof.Machine

/-- One digit to the left is a multiplication by 16 while the top digit is zero. -/
theorem toNat_shiftLeft_digit {m : BitVec 24} (h : m.toNat < 2 ^ 20) :
    (m <<< 4).toNat = m.toNat * 16 := by
  rw [BitVec.toNat_shiftLeft, Nat.shiftLeft_eq, Nat.mod_eq_of_lt (by omega)]

/-- A mantissa that has room for a digit has its top digit zero. -/
theorem lt_of_digit_fits {m k : ℕ} (h : m * 16 ^ (k + 1) < 2 ^ 24) : m < 2 ^ 20 := by
  have hdigit : m * 16 ≤ m * 16 ^ (k + 1) :=
    Nat.mul_le_mul_left m (Nat.le_self_pow k.succ_ne_zero 16)
  omega

/-- No more than five digits of a non-zero mantissa are leading zeros (R58). -/
theorem digits_le_five {m k : ℕ} (h : m ≠ 0) (hhi : m * 16 ^ k < 2 ^ 24) : k ≤ 5 := by
  have hpow : 16 ^ k < 16 ^ 6 :=
    (Nat.le_mul_of_pos_left _ (Nat.pos_of_ne_zero h)).trans_lt hhi
  have := (Nat.pow_lt_pow_iff_right (by norm_num)).1 hpow
  omega

/-- The loop with turns for all `k` leading zero digits: Underflow when the field is below `k`, else
`k` digits moved (R58). -/
theorem normalizeLoop_of_digits (s : BitVec 1) {turns e k : ℕ} {m : BitVec 24} (hturns : k ≤ turns)
    (hlo : 2 ^ 20 ≤ m.toNat * 16 ^ k) (hhi : m.toNat * 16 ^ k < 2 ^ 24) :
    normalizeLoop s turns e m =
      if e < k then .error .underflow else .ok (packNat s (e - k) (m.toNat * 16 ^ k)) := by
  induction k generalizing turns e m with
  | zero =>
    rw [pow_zero, mul_one] at hlo
    rw [pow_zero, mul_one, if_neg (Nat.not_lt_zero e), Nat.sub_zero]
    cases turns with
    | zero => rfl
    | succ n => rw [normalizeLoop, if_pos (by rw [Ne, topDigit_eq_zero_iff]; omega)]
  | succ k ih =>
    have htop := lt_of_digit_fits hhi
    have hmoved : (m <<< 4).toNat * 16 ^ k = m.toNat * 16 ^ (k + 1) := by
      rw [toNat_shiftLeft_digit htop, pow_succ']; ring
    obtain ⟨n, rfl⟩ := Nat.exists_eq_add_of_le' (Nat.one_le_of_lt hturns)
    obtain ⟨hne, -⟩ | ⟨-, he, hloop⟩ | ⟨-, he, hloop⟩ := normalizeLoop_turn s n e m
    · exact absurd ((topDigit_eq_zero_iff m).2 htop) hne
    · rw [hloop, if_pos (by omega)]
    · rw [hloop, ih (by omega) (hmoved ▸ hlo) (hmoved ▸ hhi), hmoved, Nat.sub_sub, Nat.add_comm 1 k]
      simp only [Nat.sub_lt_iff_lt_add (Nat.one_le_iff_ne_zero.2 he)]

/-- A word that is not subnormal is returned as it is (R58). -/
theorem normalizeWord_of_not_subnormal {a : IbmWord} (h : fieldM a = 0 ∨ 2 ^ 20 ≤ fieldM a) :
    normalizeWord a = .ok a := by
  rw [normalizeWord, if_neg]
  rw [isSubnormalWord_iff]
  omega

/-- NORMALIZE of a non-zero word with `k` leading zero digits, none included (R58). -/
theorem normalizeWord_of_digits {a : IbmWord} {k : ℕ} (hlo : 2 ^ 20 ≤ fieldM a * 16 ^ k)
    (hhi : fieldM a * 16 ^ k < 2 ^ 24) :
    normalizeWord a = if fieldE a < k then .error .underflow
      else .ok (wordOf (fieldS a) (fieldE a - k) (fieldM a * 16 ^ k)) := by
  cases k with
  | zero =>
    rw [pow_zero, mul_one] at hlo
    simp [normalizeWord_of_not_subnormal (.inr hlo), wordOf_fields]
  | succ k =>
    have hm : fieldM a ≠ 0 := by rintro h; simp [h] at hlo
    have he := fieldE_lt a
    rw [normalizeWord, if_pos ((isSubnormalWord_iff a).2 ⟨hm, lt_of_digit_fits hhi⟩),
      normalizeLoop_of_digits (k := k + 1) _ (digits_le_five hm hhi) (by rwa [mant_toNat])
        (by rwa [mant_toNat]), mant_toNat, expf_toNat, packNat_eq_wordOf _ (by omega) hhi,
      sign_toNat]

/-- The field is below the number of leading zero digits exactly when the magnitude is below `2^20`
units, the smallest normal one (R58). -/
theorem field_lt_digits_iff {a : IbmWord} {k : ℕ} (hlo : 2 ^ 20 ≤ fieldM a * 16 ^ k)
    (hhi : fieldM a * 16 ^ k < 2 ^ 24) : fieldE a < k ↔ unitsOf a < 2 ^ 20 := by
  rw [unitsOf]
  constructor
  · intro hlt
    obtain ⟨j, rfl⟩ := Nat.exists_eq_add_of_lt hlt
    rw [add_assoc, pow_add, ← mul_assoc] at hhi
    exact lt_of_digit_fits hhi
  · contrapose!
    intro hle
    exact hlo.trans (Nat.mul_le_mul_left _ (Nat.pow_le_pow_right (by norm_num) hle))

/-- What NORMALIZE completes with is the word brought up as far as its field allows, with no leading
zero digit left; a zero word stays as it is (R58, R60). -/
theorem normalizeWord_ok {a r : IbmWord} (h : normalizeWord a = .ok r) :
    (fieldM a = 0 ∧ r = a) ∨
      (NormalizedAsFarAs (fieldS a) (fieldE a) (fieldM a) r ∧ 2 ^ 20 ≤ fieldM r) := by
  by_cases hm : fieldM a = 0
  · rw [normalizeWord_of_not_subnormal (.inl hm)] at h
    exact .inl ⟨hm, by cases h; rfl⟩
  · obtain ⟨-, hlo, hhi⟩ := lzd_spec hm (fieldM_lt a)
    rw [normalizeWord_of_digits hlo hhi] at h
    split at h
    · cases h
    · cases h
      rw [fieldM_wordOf hhi]
      exact .inr ⟨⟨_, by omega, hhi, .inl hlo, rfl⟩, hlo⟩

/-- NORMALIZE keeps the value (R58). -/
theorem normalizeWord_val {a r : IbmWord} (h : normalizeWord a = .ok r) : val r = val a := by
  obtain ⟨-, rfl⟩ | ⟨hnorm, -⟩ := normalizeWord_ok h
  · rfl
  · exact hnorm.val_eq

/-- What NORMALIZE completes with is not subnormal (R60). -/
theorem normalizeWord_not_subnormal {a r : IbmWord} (h : normalizeWord a = .ok r) :
    fieldM r = 0 ∨ 2 ^ 20 ≤ fieldM r := by
  obtain ⟨hm, rfl⟩ | ⟨-, hlo⟩ := normalizeWord_ok h
  · exact .inl hm
  · exact .inr hlo

/-- ZEROSUBN by the mantissa (R59). -/
theorem zeroSubnormal_eq (a : IbmWord) :
    zeroSubnormal a = if fieldM a ≠ 0 ∧ fieldM a < 2 ^ 20 then 0x00000000#32 else a := by
  simp only [zeroSubnormal, isSubnormalWord_iff, canonicalZero]

/-- A word that is not subnormal is returned as it is (R59). -/
theorem zeroSubnormal_of_not_subnormal {a : IbmWord} (h : fieldM a = 0 ∨ 2 ^ 20 ≤ fieldM a) :
    zeroSubnormal a = a := by
  rw [zeroSubnormal_eq, if_neg (by omega)]

/-- What ZEROSUBN gives is not subnormal (R60). -/
theorem zeroSubnormal_not_subnormal (a : IbmWord) :
    fieldM (zeroSubnormal a) = 0 ∨ 2 ^ 20 ≤ fieldM (zeroSubnormal a) := by
  rw [zeroSubnormal_eq]
  split
  · exact .inl rfl
  · omega

/-- ISSUBN answers 0 for a word that is not subnormal (R55). -/
theorem complete_isSubnormalWord_p (s : State) {a : IbmWord}
    (h : fieldM a = 0 ∨ 2 ^ 20 ≤ fieldM a) :
    (s.complete (driveP (isSubnormalWord a))).out.p = some 0#1 := by
  rw [complete_driveP_out s (isSubnormalWord_iff a), if_neg (by omega)]

/-- NORMALIZE puts its error union on port `r` (R58). -/
theorem exec_normalize (a : IbmWord) (s : State) :
    exec (.normalize a) s = .next (s.conclude driveR (normalizeWord a)) := rfl

/-- Port `r` shows a word exactly when the datapath gave that word. -/
theorem State.conclude_driveR_out_r_iff (s : State) (res : Except ErrorKind IbmWord) (w : IbmWord) :
    (s.conclude driveR res).out.r = some w ↔ res = .ok w := by
  cases res <;> simp [driveR, OutPorts.undriven]

end Sys2Proof.Machine
end

section
/-! The statements on the normalizer. -/

namespace Sys2Proof.Machine

/-- Settles O28: the closed form at the number of leading zero digits, `lzd`. -/
theorem normalizeResult : Obligations.NormalizeResult := by
  refine ⟨fun req => decode_of_code (o := .normalize) rfl, fun a s => ?_⟩
  refine ⟨_, exec_normalize a s, (State.conclude_frame _ _ _).1, fun h => ?_, fun ⟨hm, htop⟩ => ?_,
    fun r hr => normalizeWord_val ((State.conclude_driveR_out_r_iff _ _ _).1 hr)⟩
  · rw [normalizeWord_of_not_subnormal h, State.conclude_driveR_ok]
  · obtain ⟨hle, hlo, hhi⟩ := lzd_spec hm (fieldM_lt a)
    have hpos : lzd (fieldM a) ≠ 0 := by
      intro h0
      rw [h0, pow_zero, mul_one] at hlo
      omega
    refine ⟨lzd (fieldM a), by omega, hle, hlo, hhi, fun hlt => ?_, fun hge => ?_⟩
    · rw [normalizeWord_of_digits hlo hhi, if_pos hlt, State.conclude_driveR_error]
    · rw [normalizeWord_of_digits hlo hhi, if_neg (by omega), State.conclude_driveR_ok]

/-- Settles O29: for a non-zero word the field is below the number of digits exactly below `2^20`
units. -/
theorem normalizeFailsBelowSmallestNormal : Obligations.NormalizeFailsBelowSmallestNormal := by
  refine fun a s => ⟨_, exec_normalize a s, ?_⟩
  simp only [abs_val_lt_smallestNormal_iff, Ne, val_eq_zero_iff]
  by_cases hm : fieldM a = 0
  · rw [if_neg (by simp [hm]), normalizeWord_of_not_subnormal (.inl hm)]
    exact ⟨a, rfl⟩
  · obtain ⟨-, hlo, hhi⟩ := lzd_spec hm (fieldM_lt a)
    have hbelow := field_lt_digits_iff hlo hhi
    rw [normalizeWord_of_digits hlo hhi]
    by_cases hlt : unitsOf a < 2 ^ 20
    · rw [if_pos ⟨hm, hlt⟩, if_pos (hbelow.2 hlt), State.conclude_driveR_error]
    · rw [if_neg (fun h => hlt h.2), if_neg (mt hbelow.1 hlt)]
      exact ⟨_, rfl⟩

/-- Settles O31: either result is not subnormal, and such a word is kept. -/
theorem normalizerIsIdempotent : Obligations.NormalizerIsIdempotent := by
  refine ⟨fun a r s t u hexec hr => ?_, fun a s u => ?_⟩
  · obtain rfl : s.conclude driveR (normalizeWord a) = t := by simpa [exec_normalize] using hexec
    have hns := normalizeWord_not_subnormal ((State.conclude_driveR_out_r_iff _ _ _).1 hr)
    refine ⟨_, _, exec_normalize r u, ?_, rfl, complete_isSubnormalWord_p u hns⟩
    rw [normalizeWord_of_not_subnormal hns, State.conclude_driveR_ok]
  · have hns := zeroSubnormal_not_subnormal a
    exact ⟨_, zeroSubnormal a, _, _, rfl, rfl, rfl,
      congrArg completesWith (zeroSubnormal_of_not_subnormal hns), rfl,
      complete_isSubnormalWord_p u hns⟩

/-- Settles O32: equal units are digits moved, and a normalized mantissa has none to move. -/
theorem equalValuesDifferByDigitMoves : Obligations.EqualValuesDifferByDigitMoves := by
  refine ⟨fun a b ha _ => ?_, fun a b ha hb hval => ?_⟩
  · rw [val_eq_iff_units ha, unitsOf, unitsOf, mul_pow_eq_iff_digits_moved]
  · rw [val_eq_iff_units (by omega), unitsOf, unitsOf, mul_pow_eq_iff_digits_moved] at hval
    obtain ⟨hs, j, ⟨he, hm⟩ | ⟨he, hm⟩⟩ := hval
    · obtain rfl := digits_eq_zero hb (hm ▸ fieldM_lt a)
      exact word_ext hs he.symm (by simpa using hm)
    · obtain rfl := digits_eq_zero ha (hm ▸ fieldM_lt b)
      exact word_ext hs he (by simpa using hm.symm)

/-- Settles O33: a non-zero mantissa has at most five leading zero digits, so five turns or more give
the closed form. -/
theorem normalizeLoopNeedsFiveTurns : Obligations.NormalizeLoopNeedsFiveTurns := by
  intro s e m extra hm
  have hm0 : m.toNat ≠ 0 := fun h => hm (BitVec.eq_of_toNat_eq h)
  obtain ⟨hle, hlo, hhi⟩ := lzd_spec hm0 m.isLt
  rw [normalizeLoop_of_digits s (Nat.le_add_right_of_le hle) hlo hhi,
    normalizeLoop_of_digits s hle hlo hhi]

/-- Settles O30: ZEROSUBN by the mantissa. -/
theorem zeroSubnResult : Obligations.ZeroSubnResult := by
  refine ⟨fun req => decode_of_code (o := .zeroSubn) rfl, fun a s => ⟨_, rfl, rfl, ?_⟩⟩
  rw [← zeroSubnormal_eq]
  rfl

end Sys2Proof.Machine
end

section
/-! SUPPORT. The sign operations on a word's parts: both keep field and mantissa, and the value of a
packed word puts the sign bit in front as a factor (R15, R61, R62). -/

namespace Sys2Proof.Machine

/-- The value of a word by the parts it is packed from (R15). -/
theorem val_pack (s : BitVec 1) (e : BitVec 7) (m : BitVec 24) :
    val (pack s e m) = signQ s * (m.toNat : ℚ) * 2 ^ (4 * (e.toNat : ℤ) - 280) := by
  rw [val, sign_pack, expf_pack, mant_pack]

/-- The inverted sign bit is the opposite factor. -/
theorem signQ_not (s : BitVec 1) : signQ (~~~s) = -signQ s := by
  obtain rfl | rfl := BitVec.eq_zero_or_eq_one s <;> simp [signQ]

/-- The inverted bit of a word's sign as a number (R62). -/
theorem not_sign_toNat (w : IbmWord) : (~~~sign w).toNat = 1 - fieldS w := by
  rw [BitVec.toNat_not, sign_toNat]

/-- ABS by the fields: sign 0, the rest kept (R61). -/
theorem absWord_eq_wordOf (a : IbmWord) : absWord a = wordOf 0 (fieldE a) (fieldM a) := by
  rw [absWord, pack_eq_wordOf, expf_toNat, mant_toNat, BitVec.toNat_zero]

/-- NEG by the fields: the other sign, the rest kept (R62). -/
theorem negWord_eq_wordOf (a : IbmWord) :
    negWord a = wordOf (1 - fieldS a) (fieldE a) (fieldM a) := by
  rw [negWord, pack_eq_wordOf, not_sign_toNat, expf_toNat, mant_toNat]

/-- NEG is its own inverse: the sign bit is inverted twice (R62). -/
theorem negWord_negWord (a : IbmWord) : negWord (negWord a) = a := by
  rw [negWord, negWord, sign_pack, expf_pack, mant_pack, BitVec.not_not, pack_fields]

/-- ABS leaves the magnitude with the factor 1 (R61). -/
theorem val_absWord (a : IbmWord) : val (absWord a) = |val a| := by
  have hplus : signQ 0#1 = 1 := rfl
  rw [absWord, val_pack, hplus, one_mul, val, abs_signQ_mul]

/-- NEG turns the sign factor to its opposite (R62). -/
theorem val_negWord (a : IbmWord) : val (negWord a) = -val a := by
  rw [negWord, val_pack, signQ_not, neg_mul, neg_mul, val]

end Sys2Proof.Machine
end

section
/-! The statements on the sign operations. -/

namespace Sys2Proof.Machine

/-- Settles O36: the sign factor of each result, the magnitude being the operand's. -/
theorem signOperationsActOnTheValue : Obligations.SignOperationsActOnTheValue := fun a _ =>
  ⟨_, _, absWord a, negWord a, rfl, rfl, rfl, rfl, val_absWord a, val_negWord a⟩

/-- Settles O34: ABS by the fields. -/
theorem absResult : Obligations.AbsResult :=
  ⟨fun _ => decode_of_code (o := .abs) rfl,
    fun a _ => ⟨_, rfl, rfl, congrArg completesWith (absWord_eq_wordOf a)⟩⟩

/-- Settles O35: NEG by the fields, and the bit inverted twice. -/
theorem negResult : Obligations.NegResult :=
  ⟨fun _ => decode_of_code (o := .neg) rfl,
    fun a _ _ => ⟨_, negWord a, _, rfl, rfl, rfl, negWord_eq_wordOf a, rfl,
      congrArg completesWith (negWord_negWord a)⟩⟩

end Sys2Proof.Machine
end

section
/-! SUPPORT. ADDCORE as one sum of aligned mantissas (R64): the sum is symmetric in its two triples and
changes its sign with both of theirs, and the re-encoding carries the sign through. The relations of R65
and R66 are these. -/

namespace Sys2Proof.Machine

/-- The integer that ADDCORE re-encodes: steps 1 and 2 of R64. -/
def coreSum (sa : BitVec 1) (ea ma : ℕ) (sb : BitVec 1) (eb mb : ℕ) : ℤ :=
  signedMag sa (ma >>> (4 * (max ea eb - ea))) + signedMag sb (mb >>> (4 * (max ea eb - eb)))

/-- ADDCORE re-encodes its sum unless that is zero (R64 steps 3 and 4). -/
theorem addCore_eq (sa : BitVec 1) (ea ma : ℕ) (sb : BitVec 1) (eb mb : ℕ) :
    addCore sa ea ma sb eb mb =
      if coreSum sa ea ma sb eb mb = 0 then .ok canonicalZero
      else reencode (BitVec.ofBool (decide (coreSum sa ea ma sb eb mb < 0))) (max ea eb)
        (coreSum sa ea ma sb eb mb).natAbs := rfl

/-- The inverted sign bit gives the opposite integer. -/
theorem signedMag_not (s : BitVec 1) (m : ℕ) : signedMag (~~~s) m = -signedMag s m := by
  obtain rfl | rfl := BitVec.eq_zero_or_eq_one s <;> simp [signedMag]

theorem coreSum_comm (sa : BitVec 1) (ea ma : ℕ) (sb : BitVec 1) (eb mb : ℕ) :
    coreSum sa ea ma sb eb mb = coreSum sb eb mb sa ea ma := by
  rw [coreSum, coreSum, max_comm, add_comm]

theorem coreSum_not (sa : BitVec 1) (ea ma : ℕ) (sb : BitVec 1) (eb mb : ℕ) :
    coreSum (~~~sa) ea ma (~~~sb) eb mb = -coreSum sa ea ma sb eb mb := by
  rw [coreSum, coreSum, signedMag_not, signedMag_not, neg_add]

/-- A triple and the triple with the other sign cancel. -/
theorem coreSum_opposite (s : BitVec 1) (e m : ℕ) : coreSum s e m (~~~s) e m = 0 := by
  rw [coreSum, signedMag_not, add_neg_cancel]

/-- ADDCORE is symmetric in its two triples (R65). -/
theorem addCore_comm (sa : BitVec 1) (ea ma : ℕ) (sb : BitVec 1) (eb mb : ℕ) :
    addCore sa ea ma sb eb mb = addCore sb eb mb sa ea ma := by
  rw [addCore_eq, addCore_eq, coreSum_comm, max_comm]

/-- NEG of a packed word is packed with the inverted sign. -/
theorem negWord_packNat (s : BitVec 1) (e m : ℕ) : negWord (packNat s e m) = packNat (~~~s) e m := by
  rw [negWord, packNat, sign_pack, expf_pack, mant_pack, packNat]

/-- NEG inverts bit 31 and nothing else (R62). -/
theorem negWord_eq_xor (w : IbmWord) : negWord w = w ^^^ 0x80000000#32 := by
  have hmask : 0x80000000#32 = pack 1#1 0#7 0#24 := rfl
  have hbit : ∀ s : BitVec 1, s ^^^ 1#1 = ~~~s := by decide
  conv_rhs => rw [← pack_fields w, hmask]
  rw [pack, pack, BitVec.xor_append, BitVec.xor_append, hbit, BitVec.xor_zero, BitVec.xor_zero]
  rfl

/-- The sign takes no part in re-encoding: the inverted sign gives the negated word, or the same error. -/
theorem reencode_not (s : BitVec 1) (e mag : ℕ) :
    reencode (~~~s) e mag = (reencode s e mag).map negWord := by
  unfold reencode
  split_ifs
  · rfl
  · exact congrArg Except.ok (negWord_packNat s _ _).symm
  · exact congrArg Except.ok (negWord_packNat s _ _).symm

/-- The sign bit of the opposite of a non-zero integer is the inverted one. -/
theorem ofBool_neg_lt_zero {i : ℤ} (h : i ≠ 0) :
    BitVec.ofBool (decide (-i < 0)) = ~~~BitVec.ofBool (decide (i < 0)) := by
  obtain hneg | hpos : i < 0 ∨ 0 < i := by omega
  · rw [decide_eq_false (by omega), decide_eq_true hneg]; rfl
  · rw [decide_eq_true (by omega), decide_eq_false (by omega)]; rfl

/-- With both signs inverted ADDCORE gives the canonical zero again, or negates its outcome (R66). -/
theorem addCore_not (sa : BitVec 1) (ea ma : ℕ) (sb : BitVec 1) (eb mb : ℕ) :
    (addCore sa ea ma sb eb mb = .ok canonicalZero ∧
      addCore (~~~sa) ea ma (~~~sb) eb mb = .ok canonicalZero) ∨
    addCore (~~~sa) ea ma (~~~sb) eb mb = (addCore sa ea ma sb eb mb).map negWord := by
  rw [addCore_eq, addCore_eq (~~~sa), coreSum_not, Int.natAbs_neg]
  by_cases hsum : coreSum sa ea ma sb eb mb = 0
  · exact .inl ⟨if_pos hsum, if_pos (neg_eq_zero.2 hsum)⟩
  · rw [if_neg hsum, if_neg (neg_ne_zero.2 hsum), ofBool_neg_lt_zero hsum, reencode_not]
    exact .inr rfl

theorem exec_add (a b : IbmWord) (s : State) :
    exec (.add a b) s = .next (s.conclude driveR (addWords a b)) := rfl

theorem exec_sub (a b : IbmWord) (s : State) :
    exec (.sub a b) s = .next (s.conclude driveR (subWords a b)) := rfl

theorem addWords_comm (a b : IbmWord) : addWords a b = addWords b a := addCore_comm ..

/-- SUB is ADD of the negated word (R66). -/
theorem subWords_eq_addWords_negWord (a b : IbmWord) : subWords a b = addWords a (negWord b) := by
  rw [subWords, addWords, negWord, sign_pack, expf_pack, mant_pack]

/-- A word minus itself is the canonical zero (R66). -/
theorem subWords_self (a : IbmWord) : subWords a a = .ok canonicalZero := by
  rw [subWords, addCore_eq, if_pos (coreSum_opposite ..)]

/-- The differences of two words in either order are both the canonical zero or opposite (R66). -/
theorem subWords_swap (a b : IbmWord) :
    (subWords a b = .ok canonicalZero ∧ subWords b a = .ok canonicalZero) ∨
      subWords b a = (subWords a b).map negWord := by
  have hswap : subWords b a = addCore (~~~sign a) (expf a).toNat (mant a).toNat
      (~~~(~~~sign b)) (expf b).toNat (mant b).toNat := by
    rw [subWords, addCore_comm, BitVec.not_not]
  rw [hswap, subWords]
  exact addCore_not ..

end Sys2Proof.Machine
end

section
/-! SUPPORT. ADDCORE by the fields of the words (R64): with divisions for its shifts it is `AddCoreGives`,
for either sign of the second operand, so that ADD and SUB share every lemma on what R64 gives. -/

namespace Sys2Proof.Machine

/-- The sign of a sum as a number (R64 step 3). -/
def signOfSum (i : ℤ) : ℕ := if i < 0 then 1 else 0

theorem signOfSum_lt (i : ℤ) : signOfSum i < 2 := by
  unfold signOfSum
  split <;> omega

theorem ofBool_lt_zero_toNat (i : ℤ) : (BitVec.ofBool (decide (i < 0))).toNat = signOfSum i := by
  unfold signOfSum
  split <;> rename_i h <;> simp [h]

/-- An integer is made of its sign and its magnitude. -/
theorem signedNat_signOfSum (i : ℤ) : signedNat (signOfSum i) i.natAbs = i := by
  obtain hneg | hpos := lt_or_ge i 0
  · rw [signOfSum, if_pos hneg, signedNat, if_pos rfl]; omega
  · rw [signOfSum, if_neg hpos.not_gt, signedNat, if_neg zero_ne_one]; omega

theorem signedMag_eq_signedNat (s : BitVec 1) (m : ℕ) : signedMag s m = signedNat s.toNat m := by
  obtain rfl | rfl := BitVec.eq_zero_or_eq_one s <;> rfl

/-- A shift by whole hex digits is a division by a power of 16. -/
theorem shiftRight_digits (m k : ℕ) : m >>> (4 * k) = m / 16 ^ k := by
  rw [Nat.shiftRight_eq_div_pow, pow_mul]
  rfl

/-- The sum that ADDCORE forms of two words' parts is the sum of their aligned mantissas (R64). -/
theorem coreSum_fields (a b : IbmWord) (sb : BitVec 1) :
    coreSum (sign a) (expf a).toNat (mant a).toNat sb (expf b).toNat (mant b).toNat =
      alignedSum a b sb.toNat := by
  simp only [coreSum, signedMag_eq_signedNat, shiftRight_digits, sign_toNat, expf_toNat, mant_toNat,
    alignedSum, alignedTo]

theorem alignedTo_lt (e : ℕ) (w : IbmWord) : alignedTo e w < 2 ^ 24 :=
  (Nat.div_le_self _ _).trans_lt (fieldM_lt w)

/-- The sum of two aligned mantissas has 25 bits (R64). -/
theorem natAbs_alignedSum_lt (a b : IbmWord) (sb : ℕ) : (alignedSum a b sb).natAbs < 2 ^ 25 := by
  have ha := alignedTo_lt (max (fieldE a) (fieldE b)) a
  have hb := alignedTo_lt (max (fieldE a) (fieldE b)) b
  unfold alignedSum signedNat
  split <;> split <;> omega

/-- Aligned magnitudes carry out of 24 bits exactly when they have the same sign and sum to `2^24` or
more (R67). -/
theorem carry_iff (a b : IbmWord) {sb : ℕ} (hsb : sb < 2) :
    2 ^ 24 ≤ (alignedSum a b sb).natAbs ↔ fieldS a = sb ∧
      2 ^ 24 ≤ alignedTo (max (fieldE a) (fieldE b)) a + alignedTo (max (fieldE a) (fieldE b)) b := by
  have hsa := fieldS_lt a
  have ha := alignedTo_lt (max (fieldE a) (fieldE b)) a
  have hb := alignedTo_lt (max (fieldE a) (fieldE b)) b
  unfold alignedSum signedNat
  split <;> split <;> omega

/-- Re-encoding without a carry brings the magnitude up as far as the field allows (R64 step 4). -/
theorem normalizedAsFarAs_packNat (s : BitVec 1) {e mag : ℕ} (he : e < 2 ^ 7) (hmag : mag ≠ 0)
    (hlt : mag < 2 ^ 24) : NormalizedAsFarAs s.toNat e mag
      (packNat s (e - min (lzd mag) e) (mag <<< (4 * min (lzd mag) e))) := by
  obtain ⟨-, hlo, hhi⟩ := lzd_spec hmag hlt
  have hfits : mag * 16 ^ min (lzd mag) e < 2 ^ 24 :=
    (Nat.mul_le_mul_left _ (Nat.pow_le_pow_right (by norm_num) (min_le_left _ _))).trans_lt hhi
  have hshift : mag <<< (4 * min (lzd mag) e) = mag * 16 ^ min (lzd mag) e := by
    rw [Nat.shiftLeft_eq, pow_mul]; rfl
  have hfar : 2 ^ 20 ≤ mag * 16 ^ min (lzd mag) e ∨ min (lzd mag) e = e := by
    obtain hle | hle := le_total (lzd mag) e
    · exact .inl (by rwa [min_eq_left hle])
    · exact .inr (min_eq_right hle)
  rw [hshift]
  exact ⟨_, min_le_right _ _, hfits, hfar, packNat_eq_wordOf s (by omega) hfits⟩

/-- ADDCORE of two words' parts puts on the ports what R64 gives, for either second sign. -/
theorem addCoreGives_addCore (st : State) (a b : IbmWord) (sb : BitVec 1) :
    AddCoreGives a b sb.toNat (st.conclude driveR (addCore (sign a) (expf a).toNat (mant a).toNat
      sb (expf b).toNat (mant b).toNat)).out := by
  have hbound := natAbs_alignedSum_lt a b sb.toNat
  have ha := fieldE_lt a
  have hb := fieldE_lt b
  have hmax : max (expf a).toNat (expf b).toNat = max (fieldE a) (fieldE b) := by
    rw [expf_toNat, expf_toNat]
  rw [addCore_eq, coreSum_fields, hmax]
  generalize hsum : alignedSum a b sb.toNat = sum at hbound
  have hsign := ofBool_lt_zero_toNat sum
  unfold AddCoreGives
  rw [hsum]
  by_cases hzero : sum = 0
  · rw [if_pos hzero, if_pos hzero]; rfl
  rw [if_neg hzero, if_neg hzero]
  obtain ⟨hcarry, htop, h⟩ | ⟨hcarry, hlow, h⟩ | ⟨hnone, h⟩ :=
    reencode_cases (BitVec.ofBool (decide (sum < 0))) (max (fieldE a) (fieldE b)) sum.natAbs
  · rw [if_pos hcarry, if_pos (by omega), h, State.conclude_driveR_error]
  · rw [if_pos hcarry, if_neg (by omega), h, State.conclude_driveR_ok, shiftRight_digits _ 1, pow_one,
      packNat_eq_wordOf _ (by omega) (by omega), hsign]
    rfl
  · rw [if_neg (by omega), h, State.conclude_driveR_ok]
    refine ⟨_, rfl, ?_⟩
    have hnorm := normalizedAsFarAs_packNat (BitVec.ofBool (decide (sum < 0)))
      (e := max (fieldE a) (fieldE b)) (by omega) (Int.natAbs_ne_zero.2 hzero) hnone
    rwa [hsign] at hnorm

/-- ADD gives R64 with the second operand's own sign (R65). -/
theorem addCoreGives_add (st : State) (a b : IbmWord) :
    AddCoreGives a b (fieldS b) (st.conclude driveR (addWords a b)).out := by
  rw [← sign_toNat]
  exact addCoreGives_addCore st a b (sign b)

/-- SUB gives R64 with the second operand's sign inverted (R66). -/
theorem addCoreGives_sub (st : State) (a b : IbmWord) :
    AddCoreGives a b (1 - fieldS b) (st.conclude driveR (subWords a b)).out := by
  rw [← not_sign_toNat]
  exact addCoreGives_addCore st a b (~~~sign b)

/-- What R64 gives, by cases: the canonical zero, Overflow, a carried word, or a word brought up as far as
the field allows. -/
theorem AddCoreGives.cases {a b : IbmWord} {sb : ℕ} {o : OutPorts} (h : AddCoreGives a b sb o) :
    (alignedSum a b sb = 0 ∧ o = completesWith 0x00000000#32) ∨
    (2 ^ 24 ≤ (alignedSum a b sb).natAbs ∧ max (fieldE a) (fieldE b) = 127 ∧
      o = raisesKind .overflow) ∨
    (2 ^ 24 ≤ (alignedSum a b sb).natAbs ∧ max (fieldE a) (fieldE b) < 127 ∧
      o = completesWith (wordOf (signOfSum (alignedSum a b sb)) (max (fieldE a) (fieldE b) + 1)
        ((alignedSum a b sb).natAbs / 16))) ∨
    ((alignedSum a b sb).natAbs ≠ 0 ∧ (alignedSum a b sb).natAbs < 2 ^ 24 ∧ ∃ r, o = completesWith r ∧
      NormalizedAsFarAs (signOfSum (alignedSum a b sb)) (max (fieldE a) (fieldE b))
        (alignedSum a b sb).natAbs r) := by
  have ha := fieldE_lt a
  have hb := fieldE_lt b
  unfold AddCoreGives at h
  dsimp only at h
  split at h
  · rename_i hzero
    exact .inl ⟨hzero, h⟩
  split at h
  · rename_i hcarry
    split at h
    · rename_i htop
      exact .inr (.inl ⟨hcarry, htop, h⟩)
    · exact .inr (.inr (.inl ⟨hcarry, by omega, h⟩))
  · exact .inr (.inr (.inr ⟨by omega, by omega, h⟩))

/-- R64 raises Overflow exactly on a carry at field 127, and completes otherwise (R67). -/
theorem AddCoreGives.overflow_or_completes {a b : IbmWord} {sb : ℕ} {o : OutPorts}
    (h : AddCoreGives a b sb o) (hsb : sb < 2) :
    if max (fieldE a) (fieldE b) = 127 ∧ fieldS a = sb ∧ 2 ^ 24 ≤ alignedTo 127 a + alignedTo 127 b
      then o = raisesKind .overflow else ∃ r, o = completesWith r := by
  have hcond : (max (fieldE a) (fieldE b) = 127 ∧ fieldS a = sb ∧
      2 ^ 24 ≤ alignedTo 127 a + alignedTo 127 b) ↔
      max (fieldE a) (fieldE b) = 127 ∧ 2 ^ 24 ≤ (alignedSum a b sb).natAbs := by
    refine and_congr_right fun htop => ?_
    rw [carry_iff a b hsb, htop]
  rw [if_congr hcond rfl rfl]
  obtain ⟨hzero, ho⟩ | ⟨hcarry, htop, ho⟩ | ⟨-, hlow, ho⟩ | ⟨-, hnone, r, ho, -⟩ := h.cases
  · rw [if_neg (by omega)]; exact ⟨_, ho⟩
  · rwa [if_pos ⟨htop, hcarry⟩]
  · rw [if_neg (by omega)]; exact ⟨_, ho⟩
  · rw [if_neg (by omega)]; exact ⟨r, ho⟩

end Sys2Proof.Machine
end

section
/-! SUPPORT. The accuracy of R64 in whole units of `2^-280` (R68): the alignment loses less than one unit
in the last place at the larger field, and the digit dropped after a carry at most fifteen. -/

namespace Sys2Proof.Machine

theorem signedNat_mul (s n c : ℕ) : signedNat s (n * c) = signedNat s n * c := by
  unfold signedNat
  split <;> push_cast <;> ring

/-- At its own field a word is aligned without loss. -/
theorem alignedTo_self (w : IbmWord) : alignedTo (fieldE w) w = fieldM w := by
  rw [alignedTo, Nat.sub_self, pow_zero, Nat.div_one]

/-- Aligning to a field not below its own drops less than a unit in the last place there (R64 step 1). -/
theorem alignedTo_units {w : IbmWord} {e : ℕ} (h : fieldE w ≤ e) :
    alignedTo e w * 16 ^ e ≤ unitsOf w ∧ unitsOf w < alignedTo e w * 16 ^ e + 16 ^ e := by
  have hunit : 16 ^ e = 16 ^ (e - fieldE w) * 16 ^ fieldE w := by rw [← pow_add, Nat.sub_add_cancel h]
  rw [alignedTo, unitsOf, hunit, ← mul_assoc, ← add_mul]
  exact ⟨Nat.mul_le_mul_right _ (Nat.div_mul_le_self _ _),
    Nat.mul_lt_mul_of_pos_right (Nat.lt_div_mul_add (by positivity)) (by positivity)⟩

/-- One operand stands at the larger field and loses nothing, so the exact sum of the units is less than
a unit in the last place away from the aligned sum (R68). -/
theorem abs_units_sub_alignedSum_lt (a b : IbmWord) (sb : ℕ) :
    |signedNat (fieldS a) (unitsOf a) + signedNat sb (unitsOf b) -
      alignedSum a b sb * (16 ^ max (fieldE a) (fieldE b) : ℕ)| <
      (16 ^ max (fieldE a) (fieldE b) : ℕ) := by
  obtain ⟨halo, hahi⟩ := alignedTo_units (le_max_left (fieldE a) (fieldE b))
  obtain ⟨hblo, hbhi⟩ := alignedTo_units (le_max_right (fieldE a) (fieldE b))
  have hexact : unitsOf a = alignedTo (max (fieldE a) (fieldE b)) a * 16 ^ max (fieldE a) (fieldE b) ∨
      unitsOf b = alignedTo (max (fieldE a) (fieldE b)) b * 16 ^ max (fieldE a) (fieldE b) := by
    obtain hle | hle := le_total (fieldE b) (fieldE a)
    · rw [max_eq_left hle, alignedTo_self]
      exact .inl rfl
    · rw [max_eq_right hle, alignedTo_self]
      exact .inr rfl
  rw [alignedSum, add_mul, ← signedNat_mul, ← signedNat_mul, abs_lt]
  unfold signedNat
  split <;> split <;> omega

/-- The signed units of a word brought up as far as its field allows are those it started from. -/
theorem NormalizedAsFarAs.signed_units {s e m : ℕ} {r : IbmWord} (hs : s < 2) (he : e < 2 ^ 7)
    (h : NormalizedAsFarAs s e m r) :
    signedNat (fieldS r) (unitsOf r) = signedNat s m * (16 ^ e : ℕ) := by
  obtain ⟨k, hk, hlt, -, rfl⟩ := h
  have hunits : m * 16 ^ k * 16 ^ (e - k) = m * 16 ^ e := by
    rw [mul_assoc, ← pow_add, Nat.add_sub_cancel' hk]
  rw [unitsOf, fieldS_wordOf hs (by omega) hlt, fieldE_wordOf (by omega) hlt, fieldM_wordOf hlt, hunits,
    signedNat_mul]

/-- The signed units of a carried word: the magnitude without its last digit (R64 step 4). -/
theorem signed_units_of_carry {s e mag : ℕ} (hs : s < 2) (he : e < 127) (hmag : mag < 2 ^ 25) :
    signedNat (fieldS (wordOf s (e + 1) (mag / 16))) (unitsOf (wordOf s (e + 1) (mag / 16))) =
      signedNat s (mag / 16 * 16) * (16 ^ e : ℕ) := by
  rw [unitsOf, fieldS_wordOf hs (by omega) (by omega), fieldE_wordOf (by omega) (by omega),
    fieldM_wordOf (by omega), pow_succ', ← mul_assoc, signedNat_mul]

/-- Dropping the last hex digit changes a signed integer by at most 15. -/
theorem abs_signedNat_sub_drop_digit_le (s n : ℕ) : |signedNat s n - signedNat s (n / 16 * 16)| ≤ 15 := by
  rw [abs_le]
  unfold signedNat
  split <;> omega

/-- The word R64 completes with is the aligned sum, but for the digit that a carry drops (R68). -/
theorem AddCoreGives.abs_alignedSum_sub_le {a b r : IbmWord} {sb : ℕ} {o : OutPorts}
    (h : AddCoreGives a b sb o) (hr : o.r = some r) :
    |alignedSum a b sb * (16 ^ max (fieldE a) (fieldE b) : ℕ) - signedNat (fieldS r) (unitsOf r)| ≤
      (if (alignedSum a b sb).natAbs < 2 ^ 24 then 0 else 15) *
        (16 ^ max (fieldE a) (fieldE b) : ℕ) := by
  have he : max (fieldE a) (fieldE b) < 2 ^ 7 := max_lt (fieldE_lt a) (fieldE_lt b)
  obtain ⟨hzero, rfl⟩ | ⟨-, -, rfl⟩ | ⟨hcarry, hlow, rfl⟩ | ⟨-, hnone, r', rfl, hnorm⟩ := h.cases
  · obtain rfl : 0x00000000#32 = r := Option.some.inj hr
    have hunits : signedNat (fieldS 0x00000000#32) (unitsOf 0x00000000#32) = 0 := rfl
    simp [hzero, hunits]
  · cases hr
  · obtain rfl := Option.some.inj hr
    have hdigit := abs_signedNat_sub_drop_digit_le (signOfSum (alignedSum a b sb))
      (alignedSum a b sb).natAbs
    rw [signedNat_signOfSum] at hdigit
    rw [if_neg (by omega), signed_units_of_carry (signOfSum_lt _) hlow (natAbs_alignedSum_lt a b sb),
      ← sub_mul, abs_mul, Nat.abs_cast]
    exact mul_le_mul_of_nonneg_right hdigit (Nat.cast_nonneg _)
  · obtain rfl : r' = r := Option.some.inj hr
    rw [if_pos hnone, hnorm.signed_units (signOfSum_lt _) he, signedNat_signOfSum, sub_self, abs_zero,
      zero_mul]

/-- R64's error bound, on the exact sum with the second operand's sign `sb` (R68). -/
theorem AddCoreGives.accuracy {a b r : IbmWord} {sb : ℕ} {o : OutPorts}
    (h : AddCoreGives a b sb o) (hr : o.r = some r) :
    |(signedNat (fieldS a) (unitsOf a) : ℚ) * 2 ^ (-280 : ℤ) +
        (signedNat sb (unitsOf b) : ℚ) * 2 ^ (-280 : ℤ) - val r| <
      (if (alignedSum a b sb).natAbs < 2 ^ 24 then 1 else 17) *
        (2 : ℚ) ^ (4 * ((max (fieldE a) (fieldE b) : ℕ) : ℤ) - 280) := by
  have hunits : |signedNat (fieldS a) (unitsOf a) + signedNat sb (unitsOf b) -
      signedNat (fieldS r) (unitsOf r)| <
      (if (alignedSum a b sb).natAbs < 2 ^ 24 then 1 else 17) *
        (16 ^ max (fieldE a) (fieldE b) : ℕ) := by
    have halign := abs_units_sub_alignedSum_lt a b sb
    have hdigit := h.abs_alignedSum_sub_le hr
    refine (abs_sub_le _ _ _).trans_lt ((add_lt_add_of_lt_of_le halign hdigit).trans_le ?_)
    have hunit : (0 : ℤ) ≤ (16 ^ max (fieldE a) (fieldE b) : ℕ) := Nat.cast_nonneg _
    split <;> linarith
  have hscale : (0 : ℚ) < 2 ^ (-280 : ℤ) := by positivity
  rw [val_eq_units r, ← add_mul, ← sub_mul, abs_mul, abs_of_pos hscale, zpow_field_unit, ← mul_assoc]
  refine mul_lt_mul_of_pos_right ?_ hscale
  exact_mod_cast hunits

/-- The value with the other sign, in units (R62). -/
theorem neg_val_eq_units (w : IbmWord) :
    -val w = (signedNat (1 - fieldS w) (unitsOf w) : ℚ) * 2 ^ (-280 : ℤ) := by
  have hs := fieldS_lt w
  have hopp : signedNat (1 - fieldS w) (unitsOf w) = -signedNat (fieldS w) (unitsOf w) := by
    unfold signedNat
    split <;> split <;> omega
  rw [hopp, val_eq_units, Int.cast_neg, neg_mul]

end Sys2Proof.Machine
end

section
/-! SUPPORT. Canonical words (R69): the canonical zero is neutral, and what R64 completes with is canonical
unless field 0 stops it. -/

namespace Sys2Proof.Machine

theorem isCanonicalWord_iff (w : IbmWord) :
    isCanonicalWord w = true ↔ w = 0x00000000#32 ∨ 2 ^ 20 ≤ fieldM w := by
  rw [isCanonicalWord, Bool.or_eq_true, Bool.and_eq_true, beq_iff_eq, not_isZeroWord_iff,
    isNormalizedWord_iff]
  exact or_congr_right (by omega)

/-- The canonical zero has the smallest field and adds nothing to the other mantissa (R69). -/
theorem alignedSum_zero (a : IbmWord) (sb : ℕ) :
    alignedSum a 0x00000000#32 sb = signedNat (fieldS a) (fieldM a) := by
  have hfield : fieldE 0x00000000#32 = 0 := rfl
  have hmant : ∀ e, alignedTo e 0x00000000#32 = 0 := fun e => Nat.zero_div _
  rw [alignedSum, hfield, Nat.max_zero, alignedTo_self, hmant]
  simp [signedNat]

theorem natAbs_signedNat (s m : ℕ) : (signedNat s m).natAbs = m := by
  unfold signedNat
  split <;> omega

theorem signOfSum_signedNat {s m : ℕ} (hs : s < 2) (hm : m ≠ 0) : signOfSum (signedNat s m) = s := by
  unfold signOfSum signedNat
  split <;> split <;> omega

/-- R64 with the canonical zero, of either sign, gives back a canonical word (R69). -/
theorem AddCoreGives.zero_neutral {a : IbmWord} {sb : ℕ} {o : OutPorts}
    (h : AddCoreGives a 0x00000000#32 sb o) (ha : isCanonicalWord a = true) : o = completesWith a := by
  have hm := fieldM_lt a
  have hmax : max (fieldE a) (fieldE 0x00000000#32) = fieldE a := Nat.max_zero _
  have hcases := h.cases
  rw [alignedSum_zero, hmax, natAbs_signedNat] at hcases
  obtain rfl | hnorm := (isCanonicalWord_iff a).1 ha
  · obtain ⟨-, ho⟩ | ⟨hcarry, -⟩ | ⟨hcarry, -⟩ | ⟨hne, -⟩ := hcases
    · exact ho
    · omega
    · omega
    · exact absurd rfl hne
  · rw [signOfSum_signedNat (fieldS_lt a) (by omega)] at hcases
    obtain ⟨hzero, -⟩ | ⟨hcarry, -⟩ | ⟨hcarry, -⟩ | ⟨-, -, r, rfl, hr⟩ := hcases
    · have := natAbs_signedNat (fieldS a) (fieldM a)
      omega
    · omega
    · omega
    · rw [hr.eq_word_iff.2 (.inl hnorm)]

/-- A non-zero mantissa brought up as far as its field allows is canonical, or a subnormal word at field 0
(R64 step 4). -/
theorem NormalizedAsFarAs.canonical_or_subnormal {s e m : ℕ} {r : IbmWord} (he : e < 2 ^ 7) (hm : m ≠ 0)
    (h : NormalizedAsFarAs s e m r) :
    isCanonicalWord r = true ∨ (fieldE r = 0 ∧ isSubnormalWord r = true) := by
  obtain ⟨k, hk, hlt, hfar, rfl⟩ := h
  have hpos : m * 16 ^ k ≠ 0 := mul_ne_zero hm (by positivity)
  rw [isCanonicalWord_iff, isSubnormalWord_iff, fieldE_wordOf (by omega) hlt, fieldM_wordOf hlt]
  omega

/-- What R64 completes with is canonical, or a subnormal word at field 0 (R69). -/
theorem AddCoreGives.canonical_or_subnormal {a b r : IbmWord} {sb : ℕ} {o : OutPorts}
    (h : AddCoreGives a b sb o) (hr : o.r = some r) :
    isCanonicalWord r = true ∨ (fieldE r = 0 ∧ isSubnormalWord r = true) := by
  have he : max (fieldE a) (fieldE b) < 2 ^ 7 := max_lt (fieldE_lt a) (fieldE_lt b)
  have hbound := natAbs_alignedSum_lt a b sb
  obtain ⟨-, rfl⟩ | ⟨-, -, rfl⟩ | ⟨hcarry, -, rfl⟩ | ⟨hne, -, r', rfl, hnorm⟩ := h.cases
  · obtain rfl : 0x00000000#32 = r := Option.some.inj hr
    exact .inl rfl
  · cases hr
  · obtain rfl := Option.some.inj hr
    rw [isCanonicalWord_iff, fieldM_wordOf (by omega)]
    omega
  · obtain rfl : r' = r := Option.some.inj hr
    exact hnorm.canonical_or_subnormal he hne

end Sys2Proof.Machine
end

section
/-! The statements on addition and subtraction. -/

namespace Sys2Proof.Machine

/-- Settles O37: ADDCORE by the fields, with the second operand's own sign. -/
theorem addResult : Obligations.AddResult :=
  ⟨fun _ => decode_of_code (o := .add) rfl,
    fun a b s => ⟨_, exec_add a b s, (State.conclude_frame _ _ _).1, addCoreGives_add s a b⟩⟩

/-- Settles O38: ADDCORE by the fields, with the second operand's sign inverted. -/
theorem subResult : Obligations.SubResult :=
  ⟨fun _ => decode_of_code (o := .sub) rfl,
    fun a b s => ⟨_, exec_sub a b s, (State.conclude_frame _ _ _).1, addCoreGives_sub s a b⟩⟩

/-- Settles O39: ADDCORE is symmetric, and inverting both signs negates what it completes with. -/
theorem sumsAndDifferencesAreRelated : Obligations.SumsAndDifferencesAreRelated := by
  refine ⟨fun a b s => ⟨_, exec_add a b s, ?_⟩, fun a b s u => ?_, fun a s => ?_, fun a b s => ?_⟩
  · rw [exec_add, addWords_comm]
  · refine ⟨_, negWord b, _, rfl, rfl, exec_sub a b s, ?_⟩
    rw [exec_add, subWords_eq_addWords_negWord]
  · refine ⟨_, exec_sub a a s, ?_⟩
    rw [subWords_self, State.conclude_driveR_ok, canonicalZero]
  · refine ⟨_, _, exec_sub a b s, exec_sub b a s, ?_⟩
    obtain ⟨hab, hba⟩ | hopp := subWords_swap a b
    · rw [hab, hba, State.conclude_driveR_ok]
      exact .inr (.inl ⟨rfl, rfl⟩)
    · rw [hopp]
      cases hab : subWords a b with
      | ok r => exact .inr (.inr ⟨r, rfl, congrArg completesWith (negWord_eq_xor r)⟩)
      | error k =>
        obtain rfl := addCore_error hab
        exact .inl ⟨rfl, rfl⟩

/-- Settles O40: R64's one error, with the carry read off the aligned magnitudes; inverting the second
sign turns equal signs into different ones. -/
theorem addSubRaiseOverflowExactly : Obligations.AddSubRaiseOverflowExactly := by
  intro a b s
  have ha := fieldS_lt a
  have hb := fieldS_lt b
  have hsign : fieldS a ≠ fieldS b ↔ fieldS a = 1 - fieldS b := by omega
  refine ⟨_, _, exec_add a b s, exec_sub a b s, (addCoreGives_add s a b).overflow_or_completes hb, ?_⟩
  rw [if_congr (and_congr_right fun _ => and_congr_left fun _ => hsign) rfl rfl]
  exact (addCoreGives_sub s a b).overflow_or_completes (by omega)

/-- Settles O41: R64's error bound at either sign of the second operand. -/
theorem addSubAccuracy : Obligations.AddSubAccuracy := by
  intro a b r s t
  refine ⟨fun hexec hr => ?_, fun hexec hr => ?_⟩
  · obtain rfl : s.conclude driveR (addWords a b) = t := by simpa [exec_add] using hexec
    rw [val_eq_units a, val_eq_units b]
    exact (addCoreGives_add s a b).accuracy hr
  · obtain rfl : s.conclude driveR (subWords a b) = t := by simpa [exec_sub] using hexec
    rw [sub_eq_add_neg (val a), val_eq_units a, neg_val_eq_units b]
    exact (addCoreGives_sub s a b).accuracy hr

/-- Settles O42: the canonical zero is neutral on the right, so by symmetry on the left; what R64
completes with is canonical unless field 0 stops it. -/
theorem canonicalOperandsGiveCanonicalSums : Obligations.CanonicalOperandsGiveCanonicalSums := by
  refine ⟨fun a s ha => ?_, fun a b r s t _ _ hexec hr => ?_⟩
  · have hadd := (addCoreGives_add s a 0x00000000#32).zero_neutral ha
    refine ⟨_, _, _, exec_add _ _ s, hadd, exec_add _ _ s, ?_, exec_sub _ _ s,
      (addCoreGives_sub s a 0x00000000#32).zero_neutral ha⟩
    rw [addWords_comm]
    exact hadd
  · obtain hexec | hexec := hexec
    · obtain rfl : s.conclude driveR (addWords a b) = t := by simpa [exec_add] using hexec
      exact (addCoreGives_add s a b).canonical_or_subnormal hr
    · obtain rfl : s.conclude driveR (subWords a b) = t := by simpa [exec_sub] using hexec
      exact (addCoreGives_sub s a b).canonical_or_subnormal hr

end Sys2Proof.Machine
end

section
/-! SUPPORT. LDEXP by the fields of the fraction (R70) and by the exact product it encodes (R48, R70): a
non-zero fraction is a 53-bit significand at some binade, a subnormal one too, and the exponent operand
moves the binade. -/

namespace Sys2Proof.Machine

theorem exec_ldexp (d : Double64) (n : ExpWord) (s : State) :
    exec (.ldexp d n) s = .next (s.conclude driveR (ldexpWord d n)) := rfl

theorem ldexpWord_of_special {d : Double64} (n : ExpWord) (h : doubleE d = 2047) :
    ldexpWord d n = .error .invalidValue := by
  simp only [ldexpWord, dblExp_toNat, if_pos h]

theorem ldexpWord_of_zero {d : Double64} (n : ExpWord) (hE : doubleE d = 0) (hF : doubleF d = 0) :
    ldexpWord d n = .ok canonicalZero := by
  simp [ldexpWord, dblExp_toNat, dblFrac_toNat, hE, hF]

theorem ldexpWord_of_subnormal {d : Double64} (n : ExpWord) (hE : doubleE d = 0) (hF : doubleF d ≠ 0) :
    ldexpWord d n = enc (dblSign d) (doubleF d * 2 ^ (52 - msb (doubleF d)))
      ((msb (doubleF d) : ℤ) - 1074 + n.toInt) := by
  simp [ldexpWord, dblExp_toNat, dblFrac_toNat, hE, hF, Nat.shiftLeft_eq, int16]

theorem ldexpWord_of_normal {d : Double64} (n : ExpWord) (hpos : doubleE d ≠ 0)
    (hlt : doubleE d ≠ 2047) : ldexpWord d n =
      enc (dblSign d) (2 ^ 52 + doubleF d) ((doubleE d : ℤ) - 1023 + n.toInt) := by
  simp only [ldexpWord, dblExp_toNat, dblFrac_toNat, hpos, hlt, if_false, false_and, int16]

/-- A subnormal double's leading 1 is at index 51 or below (R18). -/
theorem msb_doubleF_lt {d : Double64} (h : doubleF d ≠ 0) : msb (doubleF d) < 52 :=
  (Nat.log2_lt h).2 (doubleF_lt d)

/-- Moving the leading 1 to bit 52 makes a 53-bit significand. -/
theorem aligned_bounds {m : ℕ} (h : m ≠ 0) (hp : msb m ≤ 52) :
    2 ^ 52 ≤ m * 2 ^ (52 - msb m) ∧ m * 2 ^ (52 - msb m) < 2 ^ 53 := by
  obtain ⟨hlo, hhi⟩ := msb_spec h
  constructor
  · calc 2 ^ 52 = 2 ^ msb m * 2 ^ (52 - msb m) := by rw [← pow_add, Nat.add_sub_cancel' hp]
      _ ≤ m * 2 ^ (52 - msb m) := Nat.mul_le_mul_right _ hlo
  · calc m * 2 ^ (52 - msb m) < 2 ^ (msb m + 1) * 2 ^ (52 - msb m) :=
          Nat.mul_lt_mul_of_pos_right hhi (by positivity)
      _ = 2 ^ 53 := by rw [← pow_add]; congr 1; omega

/-- A double has no value exactly when it is an infinity or a NaN (R18). -/
theorem doubleVal_eq_none_iff (d : Double64) : doubleVal d = none ↔ doubleE d = 2047 := by
  refine ⟨fun h => ?_, doubleVal_of_special⟩
  by_contra hlt
  by_cases hE : doubleE d = 0
  · simp [doubleVal_of_exp_zero hE] at h
  · simp [doubleVal_of_normal hE hlt] at h

/-- A finite non-zero double is a significand at a binade, and LDEXP is ENC of that significand at the
binade moved by the exponent operand (R70). -/
theorem ldexpWord_of_nonzero {d : Double64} (hlt : doubleE d ≠ 2047)
    (hne : ¬(doubleE d = 0 ∧ doubleF d = 0)) :
    ∃ (sig : ℕ) (x : ℤ), 2 ^ 52 ≤ sig ∧ sig < 2 ^ 53 ∧
      doubleVal d = some (signQ (dblSign d) * (sig : ℚ) * 2 ^ (x - 52)) ∧
      ∀ n : ExpWord, ldexpWord d n = enc (dblSign d) sig (x + n.toInt) := by
  by_cases hE : doubleE d = 0
  · have hF : doubleF d ≠ 0 := fun h => hne ⟨hE, h⟩
    have hp := msb_doubleF_lt hF
    obtain ⟨hlo, hhi⟩ := aligned_bounds hF hp.le
    have hunit : ((52 - msb (doubleF d) : ℕ) : ℤ) + ((msb (doubleF d) : ℤ) - 1074 - 52) = -1074 := by
      omega
    refine ⟨_, _, hlo, hhi, ?_, fun n => ldexpWord_of_subnormal n hE hF⟩
    rw [doubleVal_of_exp_zero hE, ← hunit, zpow_add₀ two_ne_zero, zpow_natCast]
    push_cast
    rw [mul_assoc, mul_assoc, mul_assoc]
  · have hF := doubleF_lt d
    refine ⟨_, _, by omega, by omega, ?_, fun n => ldexpWord_of_normal n hE hlt⟩
    rw [doubleVal_of_normal hE hlt, sub_sub]
    norm_num

/-- What LDEXP gives is what encoding the exact product gives (R48, R70). -/
theorem encodesTo_ldexpWord {d : Double64} {v : ℚ} (h : doubleVal d = some v) (n : ExpWord)
    (st : State) :
    EncodesTo (v * 2 ^ n.toInt) (st.conclude driveR (ldexpWord d n)).out := by
  have hlt : doubleE d ≠ 2047 := fun hE => by simp [doubleVal_of_special hE] at h
  by_cases hzero : doubleE d = 0 ∧ doubleF d = 0
  · obtain ⟨hE, hF⟩ := hzero
    have hsmall : |(0 : ℚ)| < 2 ^ (-280 : ℤ) := by rw [abs_zero]; positivity
    rw [(eq_zero_iff_of_exp_zero hE h).2 hF, zero_mul, encodesTo_iff_of_small hsmall, if_pos rfl,
      ldexpWord_of_zero n hE hF]
    rfl
  · obtain ⟨sig, x, hlo, hhi, hval, henc⟩ := ldexpWord_of_nonzero hlt hzero
    obtain rfl := Option.some.inj (h.symm.trans hval)
    have hmoved : x - 52 + n.toInt = x + n.toInt - 52 := by omega
    rw [mul_assoc, ← zpow_add₀ two_ne_zero, hmoved, henc]
    exact encodesTo_enc st _ _ hlo hhi

/-- With exponent 0 LDEXP is IEEE2IBM: a subnormal double unmoved lies below every word (R49, R70). -/
theorem ldexpWord_zero (d : Double64) : ldexpWord d 0#16 = ieee2ibm d := by
  by_cases hspecial : doubleE d = 2047
  · rw [ldexpWord_of_special _ hspecial, ieee2ibm_of_special hspecial]
  by_cases hE : doubleE d = 0
  · by_cases hF : doubleF d = 0
    · rw [ldexpWord_of_zero _ hE hF, ieee2ibm_of_zero hE hF]
    · have hp := msb_doubleF_lt hF
      rw [ldexpWord_of_subnormal _ hE hF, ieee2ibm_of_subnormal hE hF, BitVec.toInt_zero,
        enc_of_below _ _ (by omega)]
  · rw [ldexpWord_of_normal _ hE hspecial, ieee2ibm_of_normal hE hspecial, BitVec.toInt_zero, add_zero]

end Sys2Proof.Machine
end

section
/-! SUPPORT. FREXP against IBM2IEEE (R71): its fraction is the word's double with the biased exponent set
to 1022, and its exponent is what that took away. -/

namespace Sys2Proof.Machine

theorem exec_frexp (a : IbmWord) (s : State) : exec (.frexp a) s =
    .next (s.complete (driveQX (frexpFraction a) (tc16 (frexpExponent a)))) := rfl

/-- The fraction of a zero word is the word's double, a zero of its sign (R71). -/
theorem frexpFraction_of_zero {a : IbmWord} (h : fieldM a = 0) : frexpFraction a = ibm2ieee a := by
  rw [ibm2ieee_of_zero h]
  simp only [frexpFraction, mant_toNat, if_pos h]

theorem frexpFraction_of_nonzero {a : IbmWord} (h : fieldM a ≠ 0) :
    frexpFraction a = packDouble (sign a) 1022#11 (alignedFraction (fieldM a)) := by
  simp only [frexpFraction, mant_toNat, if_neg h]

theorem frexpExponent_of_zero {a : IbmWord} (h : fieldM a = 0) : frexpExponent a = 0 := by
  simp only [frexpExponent, mant_toNat, if_pos h]

theorem frexpExponent_of_nonzero {a : IbmWord} (h : fieldM a ≠ 0) :
    frexpExponent a = 4 * (fieldE a : ℤ) + msb (fieldM a) - 279 := by
  simp only [frexpExponent, mant_toNat, expf_toNat, if_neg h]

/-- The sign is copied to the fraction, of a zero word too (R71). -/
theorem dblSign_frexpFraction (a : IbmWord) : dblSign (frexpFraction a) = sign a := by
  by_cases h : fieldM a = 0
  · rw [frexpFraction_of_zero h, dblSign_ibm2ieee]
  · rw [frexpFraction_of_nonzero h, dblSign_packDouble]

theorem doubleE_frexpFraction {a : IbmWord} (h : fieldM a ≠ 0) : doubleE (frexpFraction a) = 1022 := by
  rw [← dblExp_toNat, frexpFraction_of_nonzero h, dblExp_packDouble]
  rfl

/-- The fraction bits are those of the word's double (R46, R71). -/
theorem doubleF_frexpFraction {a : IbmWord} (h : fieldM a ≠ 0) :
    doubleF (frexpFraction a) = doubleF (ibm2ieee a) := by
  rw [← dblFrac_toNat, ← dblFrac_toNat, frexpFraction_of_nonzero h, ibm2ieee_of_nonzero h,
    dblFrac_packDouble, dblFrac_packDouble]

/-- The exponent is what the biased exponent of the word's double has above 1022 (R46, R71). -/
theorem frexpExponent_eq_doubleE_sub {a : IbmWord} (h : fieldM a ≠ 0) :
    frexpExponent a = (doubleE (ibm2ieee a) : ℤ) - 1022 := by
  rw [frexpExponent_of_nonzero h, doubleE_ibm2ieee h]
  push_cast
  ring

/-- The fraction of a non-zero word is its signed significand in units of `2^-53` (R71). -/
theorem doubleVal_frexpFraction {a : IbmWord} (h : fieldM a ≠ 0) : doubleVal (frexpFraction a) =
    some (signQ (sign a) * ((2 ^ 52 + doubleF (ibm2ieee a) : ℕ) : ℚ) * 2 ^ ((-1 : ℤ) - 52)) := by
  have hE := doubleE_frexpFraction h
  rw [doubleVal_of_normal (by omega) (by omega), hE, doubleF_frexpFraction h, dblSign_frexpFraction]
  rfl

/-- FREXP's fraction times two to its exponent is the word's value, sign included (R71). -/
theorem exists_frexp_fraction_value (a : IbmWord) : ∃ f : ℚ, doubleVal (frexpFraction a) = some f ∧
    f * 2 ^ frexpExponent a = val a ∧ (fieldM a ≠ 0 → 1 / 2 ≤ |f| ∧ |f| < 1) := by
  by_cases h : fieldM a = 0
  · refine ⟨val a, ?_, ?_, fun hm => absurd h hm⟩
    · rw [frexpFraction_of_zero h, doubleVal_ibm2ieee]
    · rw [frexpExponent_of_zero h, zpow_zero, mul_one]
  · have hrange := doubleE_ibm2ieee_range h
    have hF := doubleF_lt (ibm2ieee a)
    have hval := doubleVal_ibm2ieee a
    rw [doubleVal_of_normal (by omega) (by omega), dblSign_ibm2ieee, Option.some.injEq] at hval
    have hexp : (-1 : ℤ) - 52 + frexpExponent a = (doubleE (ibm2ieee a) : ℤ) - 1075 := by
      rw [frexpExponent_eq_doubleE_sub h]
      ring
    obtain ⟨hlo, hhi⟩ := significand_bounds (sig := 2 ^ 52 + doubleF (ibm2ieee a)) (-1) (by omega)
      (by omega)
    refine ⟨_, doubleVal_frexpFraction h, ?_, fun _ => ?_⟩
    · rw [mul_assoc, ← zpow_add₀ two_ne_zero, hexp, hval]
    · rw [abs_signQ_mul]
      norm_num at hlo hhi ⊢
      exact ⟨hlo, hhi⟩

/-- LDEXP of FREXP's pair is IEEE2IBM of the word's double: the same significand at the same binade
(R72). -/
theorem ldexpWord_frexp (a : IbmWord) :
    ldexpWord (frexpFraction a) (tc16 (frexpExponent a)) = ieee2ibm (ibm2ieee a) := by
  by_cases h : fieldM a = 0
  · rw [frexpFraction_of_zero h, frexpExponent_of_zero h]
    exact ldexpWord_zero _
  · have hE := doubleE_frexpFraction h
    have hrange := doubleE_ibm2ieee_range h
    have hbinade : ((1022 : ℕ) : ℤ) - 1023 + frexpExponent a = (doubleE (ibm2ieee a) : ℤ) - 1023 := by
      rw [frexpExponent_eq_doubleE_sub h]
      push_cast
      ring
    rw [ldexpWord_of_normal _ (by omega) (by omega), ieee2ibm_of_normal (by omega) (by omega),
      dblSign_frexpFraction, doubleF_frexpFraction h, hE, toInt_tc16_frexpExponent, hbinade,
      dblSign_ibm2ieee]

end Sys2Proof.Machine
end

section
/-! The statements on the fraction and the binary exponent. -/

namespace Sys2Proof.Machine

/-- Settles O43: ENC by the bits on the significand and binade of each kind of double. -/
theorem ldexpResult : Obligations.LdexpResult := by
  refine ⟨fun req => decode_of_code (o := .ldexp) rfl, fun d n s => ⟨_, exec_ldexp d n s,
    (State.conclude_frame ..).1, ?_⟩⟩
  have hlt := doubleF_lt d
  split_ifs with hspecial hzero hE
  · rw [ldexpWord_of_special n hspecial, State.conclude_driveR_error]
  · rw [ldexpWord_of_zero n hzero.1 hzero.2]
    rfl
  · have hF : doubleF d ≠ 0 := fun h => hzero ⟨hE, h⟩
    obtain ⟨hlo, hhi⟩ := msb_spec hF
    refine ⟨msb (doubleF d), hlo, hhi, ?_⟩
    rw [ldexpWord_of_subnormal n hE hF, ← dblSign_toNat]
    exact encGives_enc s _ _ (aligned_bounds hF (msb_doubleF_lt hF).le).2
  · rw [ldexpWord_of_normal n hE hspecial, ← dblSign_toNat]
    exact encGives_enc s _ _ (by omega)

/-- Settles O44: a fraction is a significand at a binade, which `n` moves. -/
theorem ldexpEncodesTheProduct : Obligations.LdexpEncodesTheProduct := by
  refine fun d n s => ⟨_, exec_ldexp d n s, (State.conclude_frame ..).1, fun hnone => ?_,
    fun v hv => encodesTo_ldexpWord hv n s⟩
  rw [ldexpWord_of_special n ((doubleVal_eq_none_iff d).1 hnone), State.conclude_driveR_error]

/-- Settles O45: both conclude with the same datapath outcome. -/
theorem ldexpByZeroIsIeee2ibm : Obligations.LdexpByZeroIsIeee2ibm := fun d s =>
  ⟨_, exec_ldexp d 0#16 s, by rw [exec_ieee2ibm, ldexpWord_zero]⟩

/-- Settles O46: the fields of the fraction, with the leading 1 at `msb`, and the exponent within its 16
bits. -/
theorem frexpResult : Obligations.FrexpResult := by
  refine ⟨fun req => decode_of_code (o := .frexp) rfl, fun a s => ⟨_, frexpFraction a,
    tc16 (frexpExponent a), exec_frexp a s, rfl, rfl, fun h => ?_, fun h => ?_⟩⟩
  · obtain ⟨hE, hF⟩ := doubleE_doubleF_ibm2ieee_of_zero h
    rw [toInt_tc16_frexpExponent, frexpExponent_of_zero h, frexpFraction_of_zero h,
      ← doubleOf_fields (ibm2ieee a), doubleS_ibm2ieee, hE, hF]
    exact ⟨rfl, rfl⟩
  · obtain ⟨hlo, hhi⟩ := msb_spec h
    refine ⟨msb (fieldM a), hlo, hhi, ?_, ?_⟩
    · rw [← sign_toNat, ← dblSign_frexpFraction, dblSign_toNat, ← doubleE_frexpFraction h,
        ← doubleF_ibm2ieee h, ← doubleF_frexpFraction h, doubleOf_fields]
    · rw [toInt_tc16_frexpExponent, frexpExponent_of_nonzero h]

/-- Settles O47: the pair is the word's double with its binary exponent split off. -/
theorem frexpPairRecoversTheValue : Obligations.FrexpPairRecoversTheValue := by
  intro a s
  obtain ⟨f, hf, hval, hrange⟩ := exists_frexp_fraction_value a
  obtain ⟨hmin, hmax⟩ := frexpExponent_range a
  refine ⟨_, _, _, f, exec_frexp a s, rfl, rfl, hf, ?_⟩
  rw [toInt_tc16_frexpExponent]
  exact ⟨hval, fun h => ⟨(hrange h).1, (hrange h).2, hmin, hmax⟩⟩

/-- Settles O48: LDEXP of the pair has the outcome of the round trip of R51, whose words are known. -/
theorem ldexpUndoesFrexp : Obligations.LdexpUndoesFrexp := by
  intro a s u
  obtain ⟨t', q, v', r, hdouble, hq, hword, hr, -, -, hself⟩ := wordToDoubleToWord a s u
  have hv : exec (.ldexp (frexpFraction a) (tc16 (frexpExponent a))) u = .next v' := by
    obtain rfl : s.complete (driveQ (ibm2ieee a)) = t' := Host.Outcome.next.inj hdouble
    obtain rfl : ibm2ieee a = q := Option.some.inj hq
    rw [exec_ldexp, ldexpWord_frexp, ← exec_ieee2ibm, hword]
  exact ⟨_, _, _, v', r, t', q, v', exec_frexp a s, rfl, rfl, hv, hr, hdouble, hq, hword, hr, hself⟩

end Sys2Proof.Machine
end

section
/-! SUPPORT. INTPARTS by the fields (R73), and what TRUNC, CEIL and FLOOR make of it (R74 to R76). -/

namespace Sys2Proof.Machine

theorem exec_trunc (a : IbmWord) (s : State) :
    exec (.trunc a) s = .next (s.complete (driveZ (tc256 (truncInt a)))) := rfl

theorem exec_ceil (a : IbmWord) (s : State) :
    exec (.ceil a) s = .next (s.complete (driveZ (tc256 (ceilInt a)))) := rfl

theorem exec_floor (a : IbmWord) (s : State) :
    exec (.floor a) s = .next (s.complete (driveZ (tc256 (floorInt a)))) := rfl

/-- A shift to the left by whole hex digits is a multiplication by a power of 16. -/
theorem shiftLeft_digits (m k : ℕ) : m <<< (4 * k) = m * 16 ^ k := by
  rw [Nat.shiftLeft_eq, pow_mul]
  rfl

/-- At field 64 and below the whole mantissa is fractional (R73). -/
theorem fieldM_lt_of_field_le {a : IbmWord} (h : fieldE a ≤ 64) : fieldM a < 16 ^ (70 - fieldE a) :=
  calc fieldM a < 16 ^ 6 := fieldM_lt a
    _ ≤ 16 ^ (70 - fieldE a) := Nat.pow_le_pow_right (by decide) (by omega)

/-- INTPARTS in one form for every field: its three ranges agree with the quotient and remainder about
field 70 (R73). -/
theorem intParts_eq (a : IbmWord) :
    intParts a = ⟨sign a, integerPart a, decide (fractionDropped a ≠ 0)⟩ := by
  have hcases := intParts_cases a
  rw [expf_toNat, mant_toNat] at hcases
  unfold integerPart fractionDropped
  obtain ⟨he, h⟩ | ⟨he, h⟩ | ⟨-, he, h⟩ := hcases <;> rw [h]
  · simp [shiftLeft_digits, he, he.not_gt]
  · have hlt := fieldM_lt_of_field_le he
    simp [Nat.div_eq_of_lt hlt, Nat.mod_eq_of_lt hlt, show fieldE a < 70 by omega]
  · rw [shiftRight_digits, pow_mul]
    simp [show fieldE a < 70 by omega]

theorem fractionDropped_le_one (a : IbmWord) : fractionDropped a ≤ 1 := by
  unfold fractionDropped
  split <;> decide

/-- INTPARTS's remainder flag as a number. -/
theorem fractionDropped_flag (a : IbmWord) :
    (if decide (fractionDropped a ≠ 0) = true then (1 : ℤ) else 0) = fractionDropped a := by
  obtain h | h := Nat.le_one_iff_eq_zero_or_eq_one.1 (fractionDropped_le_one a) <;> simp [h]

theorem sign_eq_zero_iff (w : IbmWord) : sign w = 0#1 ↔ fieldS w = 0 := by
  rw [← BitVec.toNat_inj, sign_toNat, BitVec.toNat_zero]

/-- TRUNC is the integer part with the sign (R74). -/
theorem truncInt_eq (a : IbmWord) : truncInt a = signedNat (fieldS a) (integerPart a) := by
  rw [truncInt, intParts_eq, signedMag_eq_signedNat, sign_toNat]

/-- CEIL is one up for a positive word with a fraction (R75). -/
theorem ceilInt_eq (a : IbmWord) : ceilInt a =
    if fieldS a = 0 then ((integerPart a + fractionDropped a : ℕ) : ℤ) else -(integerPart a : ℤ) := by
  simp only [ceilInt, intParts_eq, sign_eq_zero_iff, fractionDropped_flag, Nat.cast_add]

/-- FLOOR is one down for a negative word with a fraction (R76). -/
theorem floorInt_eq (a : IbmWord) : floorInt a =
    if fieldS a = 0 then (integerPart a : ℤ) else -((integerPart a + fractionDropped a : ℕ) : ℤ) := by
  simp only [floorInt, intParts_eq, sign_eq_zero_iff, fractionDropped_flag, Nat.cast_add, neg_add']

/-- Every word's truncation is held by port `z` without loss (R77). -/
theorem toInt_tc256_truncInt (a : IbmWord) : (tc256 (truncInt a)).toInt = truncInt a :=
  toInt_tc256_of_bound (abs_truncInt_le a)

theorem toInt_tc256_ceilInt (a : IbmWord) : (tc256 (ceilInt a)).toInt = ceilInt a :=
  toInt_tc256_of_bound (abs_ceilInt_le a)

theorem toInt_tc256_floorInt (a : IbmWord) : (tc256 (floorInt a)).toInt = floorInt a :=
  toInt_tc256_of_bound (abs_floorInt_le a)

end Sys2Proof.Machine
end

section
/-! SUPPORT. The roundings of a word's value (R73 to R77): the integer 1 is `16^70` units, so the integer
part is a quotient of the units and a fraction is dropped exactly at a remainder. -/

namespace Sys2Proof.Machine

/-- The integer 1 is `16^70` units: the unit in the last place at field 70 (R73). -/
theorem units_of_one : (16 : ℚ) ^ 70 * 2 ^ (-280 : ℤ) = 1 :=
  (zpow_field_unit 70).symm.trans (by norm_num)

theorem abs_val_eq_div (w : IbmWord) : |val w| = (unitsOf w : ℚ) / (16 ^ 70 : ℕ) := by
  rw [abs_val_eq_units, Nat.cast_pow, Nat.cast_ofNat, eq_div_iff (by positivity), mul_assoc,
    mul_comm (2 ^ _), units_of_one, mul_one]

theorem integerPart_eq_units_div (w : IbmWord) : integerPart w = unitsOf w / 16 ^ 70 := by
  unfold integerPart unitsOf
  split
  next h =>
    rw [← pow_sub_mul_pow 16 h, ← mul_assoc, Nat.mul_div_cancel _ (by positivity)]
  next h =>
    rw [← pow_sub_mul_pow 16 (not_le.1 h).le, Nat.mul_div_mul_right _ _ (by positivity)]

theorem fractionDropped_eq_units_mod (w : IbmWord) :
    fractionDropped w = if unitsOf w % 16 ^ 70 ≠ 0 then 1 else 0 := by
  unfold fractionDropped unitsOf
  obtain h | h := lt_or_ge (fieldE w) 70
  · rw [← pow_sub_mul_pow 16 h.le, Nat.mul_mod_mul_right]
    simp [h]
  · rw [← pow_sub_mul_pow 16 h, ← mul_assoc, Nat.mul_mod_left]
    simp [h.not_gt]

/-- The integer part is the magnitude rounded down (R73). -/
theorem floor_abs_val (w : IbmWord) : ⌊|val w|⌋ = integerPart w := by
  rw [abs_val_eq_div, Rat.floor_natCast_div_natCast, integerPart_eq_units_div, Int.natCast_ediv]

/-- With one more for a dropped fraction it is the magnitude rounded up (R73). -/
theorem ceil_abs_val (w : IbmWord) : ⌈|val w|⌉ = (integerPart w + fractionDropped w : ℕ) := by
  rw [abs_val_eq_div, Rat.ceil_natCast_div_natCast, integerPart_eq_units_div,
    fractionDropped_eq_units_mod]
  norm_num
  split <;> omega

/-- The value is the magnitude with the sign (R15). -/
theorem val_of_positive {w : IbmWord} (h : fieldS w = 0) : val w = |val w| := by
  rw [abs_val, val_of_fields_pos h rfl rfl]

theorem val_of_negative {w : IbmWord} (h : fieldS w ≠ 0) : val w = -|val w| := by
  rw [abs_val, val_of_fields_neg (by have := fieldS_lt w; omega) rfl rfl]

/-- A rational rounded toward zero (R74). -/
def towardZero (x : ℚ) : ℤ := if 0 ≤ x then ⌊x⌋ else ⌈x⌉

/-- Rounding toward zero rounds the magnitude down. -/
theorem towardZero_of_nonneg {x : ℚ} (h : 0 ≤ x) : towardZero x = ⌊x⌋ := if_pos h

theorem towardZero_neg (x : ℚ) : towardZero (-x) = -towardZero x := by
  obtain h | rfl | h := lt_trichotomy x 0
  · rw [towardZero, towardZero, if_pos (by linarith), if_neg (by linarith), Int.floor_neg]
  · rfl
  · rw [towardZero, towardZero, if_neg (by linarith), if_pos h.le, Int.ceil_neg]

/-- CEIL is the least integer not below the value (R75). -/
theorem ceilInt_eq_ceil (a : IbmWord) : ceilInt a = ⌈val a⌉ := by
  rw [ceilInt_eq]
  split
  next h => rw [val_of_positive h, ceil_abs_val]
  next h => rw [val_of_negative h, Int.ceil_neg, floor_abs_val]

/-- FLOOR is the greatest integer not above the value (R76). -/
theorem floorInt_eq_floor (a : IbmWord) : floorInt a = ⌊val a⌋ := by
  rw [floorInt_eq]
  split
  next h => rw [val_of_positive h, floor_abs_val]
  next h => rw [val_of_negative h, Int.floor_neg, ceil_abs_val]

/-- TRUNC is the value rounded toward zero (R74). -/
theorem truncInt_eq_towardZero (a : IbmWord) : truncInt a = towardZero (val a) := by
  rw [truncInt_eq, signedNat]
  split
  next h =>
    rw [val_of_negative (by omega), towardZero_neg, towardZero_of_nonneg (abs_nonneg _), floor_abs_val]
  next h =>
    rw [val_of_positive (by have := fieldS_lt a; omega), towardZero_of_nonneg (abs_nonneg _), floor_abs_val]

/-- From field 70 up every digit is integral, and no fraction is dropped (R73). -/
theorem fractionDropped_of_field_ge {a : IbmWord} (h : 70 ≤ fieldE a) : fractionDropped a = 0 :=
  if_neg fun hlt => h.not_gt hlt.1

theorem floorInt_le_truncInt (a : IbmWord) : floorInt a ≤ truncInt a := by
  have := fieldS_lt a
  rw [floorInt_eq, truncInt_eq, signedNat]
  split_ifs <;> omega

theorem truncInt_le_ceilInt (a : IbmWord) : truncInt a ≤ ceilInt a := by
  have := fieldS_lt a
  rw [ceilInt_eq, truncInt_eq, signedNat]
  split_ifs <;> omega

/-- Without a dropped fraction the three integers agree (R77). -/
theorem integers_agree_of_no_fraction {a : IbmWord} (h : fractionDropped a = 0) :
    truncInt a = floorInt a ∧ truncInt a = ceilInt a := by
  have := fieldS_lt a
  rw [floorInt_eq, ceilInt_eq, truncInt_eq, signedNat, h]
  split_ifs <;> omega

/-- Ceiling and floor of a value that is no integer are one apart. -/
theorem ceil_sub_floor_of_not_integer {x : ℚ} (h : ¬∃ i : ℤ, (i : ℚ) = x) : ⌈x⌉ - ⌊x⌋ = 1 := by
  have hlt : ⌊x⌋ < ⌈x⌉ := Int.lt_ceil.2 ((Int.floor_le x).lt_of_ne fun heq => h ⟨_, heq⟩)
  have := Int.ceil_le_floor_add_one x
  omega

end Sys2Proof.Machine
end

section
/-! SUPPORT. Truncating an encoded value (R77): the word that IEEE2IBM gives for a magnitude below
`2^24 + 1` has lost nothing of the integer part. -/

namespace Sys2Proof.Machine

theorem completesWith_ne_raisesKind (r : IbmWord) (k : ErrorKind) : completesWith r ≠ raisesKind k := by
  intro h
  have hst : Status.ok = k.status := Option.some.inj (congrArg OutPorts.st h)
  exact k.status_ne_ok hst.symm

theorem completesWith_inj {r w : IbmWord} : completesWith r = completesWith w ↔ r = w :=
  ⟨fun h => Option.some.inj (congrArg OutPorts.r h), congrArg completesWith⟩

/-- An encoding that completes gives the canonical zero for zero, and else a truncated word (R48). -/
theorem EncodesTo.word_cases {v : ℚ} {r : IbmWord} (h : EncodesTo v (completesWith r)) :
    (v = 0 ∧ r = 0x00000000#32) ∨
    ((fieldS r = 1 ↔ v < 0) ∧ |val r| ≤ |v| ∧ |v| - |val r| < (2 : ℚ) ^ (4 * (fieldE r : ℤ) - 280) ∧
      (2 ^ 20 ≤ fieldM r ∨ fieldE r = 0)) := by
  unfold EncodesTo at h
  split_ifs at h with hmax hzero hmin
  · exact absurd h (completesWith_ne_raisesKind _ _)
  · exact .inl ⟨hzero, completesWith_inj.1 h⟩
  · exact absurd h (completesWith_ne_raisesKind _ _)
  · obtain ⟨w, hw, hsign, hle, hloss, hnorm, hlow⟩ := h
    obtain rfl := completesWith_inj.1 hw
    exact .inr ⟨hsign, hle, hloss, (le_or_gt _ _).imp hnorm hlow⟩

/-- Up to field 70 the integer 1 is a whole number of units in the last place. -/
theorem one_eq_digits_mul_ulp {e : ℕ} (h : e ≤ 70) :
    (1 : ℚ) = (16 ^ (70 - e) : ℕ) * 2 ^ (4 * (e : ℤ) - 280) := by
  rw [zpow_field_unit, ← mul_assoc, Nat.cast_pow, Nat.cast_ofNat, pow_sub_mul_pow 16 h,
    units_of_one]

/-- A word up to field 70 that is less than a unit in the last place below `x` is not below any integer
that `x` is not below. -/
theorem natCast_le_abs_val {r : IbmWord} {x : ℚ} {n : ℕ} (he : fieldE r ≤ 70) (hn : n ≤ x)
    (hloss : x - |val r| < (2 : ℚ) ^ (4 * (fieldE r : ℤ) - 280)) : (n : ℚ) ≤ |val r| := by
  have hulp : (0 : ℚ) < 2 ^ (4 * (fieldE r : ℤ) - 280) := by positivity
  have hint : (n : ℚ) = ((n * 16 ^ (70 - fieldE r) : ℕ) : ℚ) * 2 ^ (4 * (fieldE r : ℤ) - 280) := by
    rw [Nat.cast_mul, mul_assoc, ← one_eq_digits_mul_ulp he, mul_one]
  rw [abs_val] at hloss ⊢
  rw [hint] at hn ⊢
  have hlt : ((n * 16 ^ (70 - fieldE r) : ℕ) : ℚ) < ((fieldM r + 1 : ℕ) : ℚ) := by
    rw [← mul_lt_mul_iff_left₀ hulp]
    push_cast at hn ⊢
    linarith
  exact mul_le_mul_of_nonneg_right (Nat.cast_le.2 (Nat.lt_succ_iff.1 (Nat.cast_lt.1 hlt))) hulp.le

/-- A normalized word from field 71 up is at least `2^24`. -/
theorem le_abs_val_of_field_ge {r : IbmWord} (he : 71 ≤ fieldE r) (hm : 2 ^ 20 ≤ fieldM r) :
    (2 : ℚ) ^ 24 ≤ |val r| := by
  have hm' : (2 : ℚ) ^ 20 ≤ fieldM r := by exact_mod_cast hm
  calc (2 : ℚ) ^ 24 = 2 ^ 20 * 2 ^ (4 : ℤ) := by norm_num
    _ ≤ (fieldM r : ℚ) * 2 ^ (4 * (fieldE r : ℤ) - 280) :=
      mul_le_mul hm' (zpow_le_zpow_right₀ one_le_two (by omega)) (by positivity) (by positivity)
    _ = |val r| := (abs_val r).symm

/-- Encoding a magnitude below `2^24 + 1` keeps its integer part: up to field 70 the unit in the last
place divides 1, and above it the word lies between `2^24` and the magnitude (R77). -/
theorem EncodesTo.floor_abs {v : ℚ} {r : IbmWord} (h : EncodesTo v (completesWith r))
    (hv : |v| < 2 ^ 24 + 1) : ⌊|val r|⌋ = ⌊|v|⌋ := by
  obtain ⟨rfl, rfl⟩ | ⟨-, hle, hloss, hnorm⟩ := h.word_cases
  · rw [(val_eq_zero_iff _).2 rfl]
  refine le_antisymm (Int.floor_le_floor hle) (Int.le_floor.2 ?_)
  obtain he | he := Nat.lt_or_ge 70 (fieldE r)
  · have hfloor : ⌊|v|⌋ ≤ 2 ^ 24 := Int.lt_add_one_iff.1 (Int.floor_lt.2 (by exact_mod_cast hv))
    calc (⌊|v|⌋ : ℚ) ≤ 2 ^ 24 := by exact_mod_cast hfloor
      _ ≤ |val r| := le_abs_val_of_field_ge he (hnorm.resolve_right (by omega))
  · rw [← natCast_floor_eq_intCast_floor (abs_nonneg v)]
    exact natCast_le_abs_val he (Nat.floor_le (abs_nonneg v)) hloss

/-- Truncating the encoding of a value below `2^24 + 1` in magnitude truncates the value (R77). -/
theorem EncodesTo.truncInt_word {v : ℚ} {r : IbmWord} (h : EncodesTo v (completesWith r))
    (hv : |v| < 2 ^ 24 + 1) : truncInt r = towardZero v := by
  have hfloor := h.floor_abs hv
  obtain ⟨rfl, rfl⟩ | ⟨hsign, -⟩ := h.word_cases
  · rfl
  rw [floor_abs_val] at hfloor
  rw [truncInt_eq, signedNat, hfloor]
  split
  next hs =>
    rw [abs_of_neg (hsign.1 hs), ← towardZero_of_nonneg (by linarith [hsign.1 hs]), towardZero_neg, neg_neg]
  next hs =>
    have hpos : 0 ≤ v := not_lt.1 (mt hsign.2 hs)
    rw [abs_of_nonneg hpos, towardZero_of_nonneg hpos]

/-- TRUNC after IEEE2IBM truncates the double's value below `2^24 + 1` in magnitude (R77). -/
theorem truncInt_of_encoded {d : Double64} {v : ℚ} {r : IbmWord} {s : State} (hd : doubleVal d = some v)
    (hr : (s.conclude driveR (ieee2ibm d)).out = completesWith r) (hv : |v| < 2 ^ 24 + 1) :
    truncInt r = towardZero v := by
  have henc := encodesTo_ieee2ibm hd s
  rw [hr] at henc
  exact henc.truncInt_word hv

/-- An integer and a fraction beyond it in the integer's own direction. -/
theorem towardZero_add_fraction {i : ℤ} {f : ℚ} (hi : 0 ≤ i) (hf : 0 ≤ f) (hf1 : f < 1) :
    towardZero (i + f) = i := by
  have hi' : (0 : ℚ) ≤ i := by exact_mod_cast hi
  rw [towardZero_of_nonneg (by positivity), Int.floor_intCast_add, Int.floor_eq_zero_iff.2 ⟨hf, hf1⟩,
    add_zero]

theorem towardZero_sub_fraction {i : ℤ} {f : ℚ} (hi : i ≤ 0) (hf : 0 ≤ f) (hf1 : f < 1) :
    towardZero (i - f) = i := by
  have hneg : (i : ℚ) - f = -(((-i : ℤ) : ℚ) + f) := by push_cast; ring
  rw [hneg, towardZero_neg, towardZero_add_fraction (by omega) hf hf1, neg_neg]

end Sys2Proof.Machine
end

section
/-! The statements on the integer parts. -/

namespace Sys2Proof.Machine

/-- Settles O49: INTPARTS in one form for every field, and port `z` wide enough for each integer. -/
theorem integerResults : Obligations.IntegerResults := by
  refine ⟨fun req => ⟨decode_of_code (o := .trunc) rfl, decode_of_code (o := .ceil) rfl,
    decode_of_code (o := .floor) rfl⟩, fun a s => ⟨?_, ?_, ?_⟩⟩
  · exact ⟨_, _, exec_trunc a s, rfl, rfl, by rw [toInt_tc256_truncInt, truncInt_eq]⟩
  · exact ⟨_, _, exec_ceil a s, rfl, rfl, by rw [toInt_tc256_ceilInt, ceilInt_eq]⟩
  · exact ⟨_, _, exec_floor a s, rfl, rfl, by rw [toInt_tc256_floorInt, floorInt_eq]⟩

/-- Settles O50: each integer rounds the quotient of the word's units. -/
theorem integerResultsAreTheRoundings : Obligations.IntegerResultsAreTheRoundings := by
  refine fun a s => ⟨_, _, _, _, _, _, exec_trunc a s, rfl, exec_ceil a s, rfl, exec_floor a s, rfl, ?_⟩
  rw [toInt_tc256_truncInt, toInt_tc256_ceilInt, toInt_tc256_floorInt]
  exact ⟨truncInt_eq_towardZero a, ceilInt_eq_ceil a, floorInt_eq_floor a⟩

/-- Settles O51: the order and the agreement by the integer part and the dropped fraction, the difference
by the roundings of the value. -/
theorem integerPartsAreOrderedAndBounded : Obligations.IntegerPartsAreOrderedAndBounded := by
  refine fun a s => ⟨_, _, _, _, _, _, exec_trunc a s, rfl, exec_ceil a s, rfl, exec_floor a s, rfl, ?_⟩
  rw [toInt_tc256_truncInt, toInt_tc256_ceilInt, toInt_tc256_floorInt]
  refine ⟨floorInt_le_truncInt a, truncInt_le_ceilInt a, fun ⟨i, hi⟩ => ?_, fun hfraction => ?_,
    fun he => ?_, abs_truncInt_le a, abs_ceilInt_le a, abs_floorInt_le a⟩
  · rw [ceilInt_eq_ceil, floorInt_eq_floor, ← hi, Int.ceil_intCast, Int.floor_intCast, sub_self]
  · rw [ceilInt_eq_ceil, floorInt_eq_floor, ceil_sub_floor_of_not_integer hfraction]
  · exact (integers_agree_of_no_fraction (fractionDropped_of_field_ge he)).imp
      (congrArg tc256) (congrArg tc256)

/-- Settles O52: encoding keeps the integer part of a magnitude below `2^24 + 1`, in either form. -/
theorem truncOfEncodedGivesTheInteger : Obligations.TruncOfEncodedGivesTheInteger := by
  intro d i f r s t u hf hf1 hd ht hr
  obtain rfl : s.conclude driveR (ieee2ibm d) = t := Host.Outcome.next.inj ht
  refine ⟨_, _, exec_trunc r u, rfl, ?_⟩
  rw [toInt_tc256_truncInt]
  obtain ⟨hlo, hhi, hv⟩ | ⟨hlo, hhi, hv⟩ := hd
  · have hlo' : (0 : ℚ) ≤ i := by exact_mod_cast hlo
    have hhi' : (i : ℚ) ≤ 2 ^ 24 := by exact_mod_cast hhi
    rw [truncInt_of_encoded hv hr (abs_lt.2 ⟨by linarith, by linarith⟩),
      towardZero_add_fraction hlo hf hf1]
  · have hlo' : (-2 ^ 24 : ℚ) ≤ i := by exact_mod_cast hlo
    have hhi' : (i : ℚ) ≤ 0 := by exact_mod_cast hhi
    rw [truncInt_of_encoded hv hr (abs_lt.2 ⟨by linarith, by linarith⟩),
      towardZero_sub_fraction hhi hf hf1]

end Sys2Proof.Machine
end

section
/-! The statements on the state before the first transaction (R88, R89). -/

namespace Sys2Proof.Machine

/-- A bundle with no port driven is legal: it carries no value to range over (R26). -/
theorem legal_undriven : OutPorts.undriven.Legal where
  shape := .inl rfl
  double := by rintro _ ⟨⟩
  exponent := by rintro _ ⟨⟩
  integer := by rintro _ ⟨⟩
  trueExp := by rintro _ _ ⟨⟩

/-- Settles O12: the bundle at reset is the undriven one. -/
theorem resetHasLegalOutputs : Obligations.ResetHasLegalOutputs := by
  rw [Obligations.ResetHasLegalOutputs, State.Inv, State.reset_out]
  exact legal_undriven

/-- Settles O13: the first clause is the undriven bundle at reset; for the second, equal requests agree
at any two states, and reset is one of them. -/
theorem resetDrivesNothing : Obligations.ResetDrivesNothing :=
  ⟨State.reset_out, fun s req => transact_out_eq State.reset s req⟩

end Sys2Proof.Machine
end

section
/-! SUPPORT. Table words (R39) and undriven ports (R26), each with the model's choice for what the spec
leaves open (log entries 1 and 2). -/

namespace Sys2Proof

/-- No operation takes an operand from port `op`, so a table word's bits do not reach the operands. -/
theorem Op.instr_tableRequest (o : Op) (nbits w : ℕ) :
    o.instr (tableRequest nbits w) = o.instr Request.zero := by
  cases o <;> rfl

/-- A table word with an operation's code on `op` is that operation with zero operands (log entry 1). -/
theorem decodeTableWord_of_code {nbits w : ℕ} {o : Op} (h : (tableRequest nbits w).op = o.code) :
    decodeTableWord nbits w = some (o.instr Request.zero) := by
  rw [decodeTableWord, decode_of_code h, Op.instr_tableRequest]

/-- A table word with a reserved code on `op` is no instruction (R41). -/
theorem decodeTableWord_of_reserved {nbits w : ℕ} (h : 0x12 ≤ (tableRequest nbits w).op.toNat) :
    decodeTableWord nbits w = none := by
  rw [decodeTableWord, (decode_eq_error_iff _ _).2 ⟨h, rfl⟩]

end Sys2Proof

namespace Sys2Proof.Machine

/-- A step that answers a next state takes one draw (log entry 2). -/
theorem step_draws {s t : State} (h : step s = .next t) : t.draws = s.draws + 1 := by
  obtain ⟨i, -, hexec⟩ := step_eq_next h
  exact (exec_frame hexec).2

section
variable {s : State}

theorem State.readSt_of_undriven (h : s.out.st = none) : s.readSt = Config.undrivenSt s.inp s.draws := by
  simp [State.readSt, h]

theorem State.readR_of_undriven (h : s.out.r = none) : s.readR = Config.undrivenR s.inp s.draws := by
  rw [State.readR, h, Option.getD_none]

theorem State.readQ_of_undriven (h : s.out.q = none) : s.readQ = Config.undrivenQ s.inp s.draws := by
  rw [State.readQ, h, Option.getD_none]

theorem State.readX_of_undriven (h : s.out.x = none) : s.readX = Config.undrivenX s.inp s.draws := by
  rw [State.readX, h, Option.getD_none]

theorem State.readZ_of_undriven (h : s.out.z = none) : s.readZ = Config.undrivenZ s.inp s.draws := by
  rw [State.readZ, h, Option.getD_none]

theorem State.readP_of_undriven (h : s.out.p = none) : s.readP = Config.undrivenP s.inp s.draws := by
  rw [State.readP, h, Option.getD_none]

theorem State.readFs_of_undriven (h : s.out.fs = none) : s.readFs = Config.undrivenFs s.inp s.draws := by
  rw [State.readFs, h, Option.getD_none]

theorem State.readFe_of_undriven (h : s.out.fe = none) : s.readFe = Config.undrivenFe s.inp s.draws := by
  rw [State.readFe, h, Option.getD_none]

theorem State.readFm_of_undriven (h : s.out.fm = none) : s.readFm = Config.undrivenFm s.inp s.draws := by
  rw [State.readFm, h, Option.getD_none]

theorem State.readFt_of_undriven (h : s.out.ft = none) : s.readFt = Config.undrivenFt s.inp s.draws := by
  rw [State.readFt, h, Option.getD_none]

end

end Sys2Proof.Machine
end

section
/-! The statements on table words and on undriven ports. -/

namespace Sys2Proof.Machine

/-- Settles O2: each word has the code of its operation on `op`, and the last the first reserved code. -/
theorem codeWordsDecode : Obligations.CodeWordsDecode :=
  ⟨decodeTableWord_of_code (o := .ibm2ieee) rfl, decodeTableWord_of_code (o := .ieee2ibm) rfl,
    decodeTableWord_of_code (o := .compose) rfl, decodeTableWord_of_code (o := .normalize) rfl,
    decodeTableWord_of_code (o := .neg) rfl, decodeTableWord_of_code (o := .sub) rfl,
    decodeTableWord_of_code (o := .ldexp) rfl, decodeTableWord_of_code (o := .floor) rfl,
    decodeTableWord_of_reserved (by decide)⟩

/-- Settles O10: a step's frame counts one draw, and each port's read is its free value where the port is
not driven. -/
theorem undrivenReadsAreFreshDraws : Obligations.UndrivenReadsAreFreshDraws :=
  ⟨fun _ _ => step_draws, fun _ => ⟨State.readSt_of_undriven, State.readR_of_undriven,
    State.readQ_of_undriven, State.readX_of_undriven, State.readZ_of_undriven, State.readP_of_undriven,
    State.readFs_of_undriven, State.readFe_of_undriven, State.readFm_of_undriven,
    State.readFt_of_undriven⟩⟩

end Sys2Proof.Machine
end
